-- ==== Sys2Proof/Word.lean ====
section
/-! DEFINITION. The word types of the block: 00_scope.md R6 and R8 fix every width. -/

namespace Sys2Proof

/-- A `u8`: a grid cell, a register value, an operand byte, a coordinate (R6, R8). -/
abbrev Byte := BitVec 8

/-- A `u16`: a linear address or a program counter (R6). -/
abbrev Addr := BitVec 16

/-- A page id, 8 bits (R6). -/
abbrev PageId := BitVec 8

/-- A set of 256 byte values: bit `i` says whether `i` is in it (55_host_interface.md R218). -/
abbrev Bits256 := BitVec 256

end Sys2Proof
end

