-- ==== Sys2Proof/Machine/Addressing.lean ====
section
/-! DEFINITION. The byte-grid dual-addressing decoder: 20_memory.md section 2. -/

namespace Sys2Proof.Machine

/-- The linear address of cell `(x, y)`: the column is the high byte, the row the low byte (R52). -/
def pack (x y : Byte) : Addr := BitVec.ofNat 16 (x.toNat * 256 + y.toNat)

/-- The column of a linear address, its bits 15:8 (R53). -/
def xof (a : Addr) : Byte := BitVec.ofNat 8 (a.toNat / 256)

/-- The row of a linear address, its bits 7:0 (R53). -/
def yof (a : Addr) : Byte := BitVec.ofNat 8 a.toNat

/-- `sat16(v)`: `v` if it fits 16 bits, else 0xFFFF (00_scope.md R10). -/
def sat16 (v : Nat) : Addr := if v ≤ 0xFFFF then BitVec.ofNat 16 v else 0xFFFF

end Sys2Proof.Machine
end

