-- ==== Sys2Proof/Config.lean ====
section
/-! DEFINITION. The implementation parameters of 00_scope.md R7: constants of a run (10_state.md R37). A machine's
state carries its own, no operation writes them, and every statement quantifies over them. -/

namespace Sys2Proof

/-- Policy for a movement out of the grid (55_host_interface.md R203 to R205). -/
inductive WrapMode where
  | block
  | wrapLine
  | wrapGrid
deriving DecidableEq, Repr

/-- When the host may rotate pages (55_host_interface.md R212). -/
inductive RotateRule where
  | always
  | never
  | afterPageInstruction
deriving DecidableEq, Repr

/-- Order of the two `addr16` operand bytes (30_encoding.md R96). -/
inductive AddrOperandOrder where
  | xy
  | yx
deriving DecidableEq, Repr

/-- Whether a read goes through the overlay (30_encoding.md R98 for operand bytes, 10_state.md R25 for registers). -/
inductive View where
  | effective
  | stored
deriving DecidableEq, Repr

/-- The parameters of R7. A default below is the value the spec states; a field without one has no default in the
spec. An offset above 7 cannot be written down (21_overlay.md R80). -/
structure Config where
  /-- `PLAYER_OFFSET`. -/
  playerOffset : Fin 8 := 6
  /-- `PAGE_SWITCH_ENABLED`. -/
  pageSwitchEnabled : Bool
  /-- `WRAP_MODE`. -/
  wrapMode : WrapMode
  /-- `ROTATE_RULE`. -/
  rotateRule : RotateRule
  /-- `TRIGGER_RESETS_REGS`. -/
  triggerResetsRegs : Bool
  /-- `ADDR_OPERAND_ORDER`. -/
  addrOperandOrder : AddrOperandOrder := .xy
  /-- `OPERAND_VIEW`. -/
  operandView : View := .effective
  /-- `REG_OPERAND_VIEW`. -/
  regOperandView : View := .stored
  /-- `DIFF_MERGE_GAP`. -/
  diffMergeGap : Nat := 3
  /-- `TRIGGER_ON_BLOCKED_MOVE`. -/
  triggerOnBlockedMove : Bool := false
  /-- `TRIGGER_RESET_DATA`, which the spec leaves open (55_host_interface.md R216). -/
  triggerResetData : Byte
  /-- `TRIGGER_RESET_COMPARE`, which the spec leaves open (55_host_interface.md R216). -/
  triggerResetCompare : Byte
deriving DecidableEq, Repr

/-- The constants a machine holds right after reset. The values of the fields with no default in the spec are the
model's choice (log entries 10 and 11). DESIGN CHOICE, unsafe: no statement rests on them. -/
def Config.atReset : Config where
  pageSwitchEnabled := true
  wrapMode := .block
  rotateRule := .always
  triggerResetsRegs := false
  triggerResetData := 0
  triggerResetCompare := 0

end Sys2Proof
end

