-- ==== Sys2Proof/Machine/State.lean ====
section
/-! DEFINITION. The state of the block as plain data (10_state.md, 20_memory.md section 3, 55_host_interface.md
sections 5 and 6), the reasons a step can stop, and the state after reset (70_reset_and_hazards.md R270). -/

namespace Sys2Proof.Machine

/-- The three byte registers, in the order of the register list (10_state.md R21). -/
inductive RegId where
  | data
  | page
  | compare
deriving DecidableEq, Repr

/-- A register record (R20). `isProtected` and `name` are inert: no rule reads or writes them (R26). -/
structure Register where
  value : Byte
  isProtected : Bool
  name : String
deriving DecidableEq, Repr

/-- The register file (R20, R21). -/
structure RegFile where
  data : Register
  page : Register
  compare : Register
deriving DecidableEq, Repr

/-- Where the player is: a grid coordinate or a register (R30). -/
inductive Player where
  | pos (x y : Byte)
  | reg (r : RegId)
deriving DecidableEq, Repr

/-- One grid: the stored bytes by linear address. Canonical form: addresses strictly rising, no entry 0, which is
what an unlisted address reads as (log entry 8). -/
abbrev Grid := List Host.Cell

/-- What a trigger does (55_host_interface.md R214). -/
inductive Effect where
  | setProgramCounter (target : Addr)
  | endOfLevel
  | message (text : String)
deriving DecidableEq, Repr

/-- A trigger, keyed by its packed position (R214). -/
structure Trigger where
  position : Addr
  effect : Effect
  oneTime : Bool
  triggered : Bool
deriving DecidableEq, Repr

/-- A loaded page: one grid and its triggers (20_memory.md R56). -/
structure Page where
  id : PageId
  grid : Grid
  triggers : List Trigger
deriving DecidableEq, Repr

/-- The loaded pages: the whole address space `(page id, linear address)` (20_memory.md R50, R56). -/
abbrev Memory := List Page

/-- A contiguous run of changed bytes, the first one and those after it, so that no hunk is empty (50_diff_codec.md R170,
R171; log entry 23 for the upper bound). Its bytes as one sequence are `Hunk.bytes`. -/
structure Hunk where
  start : Addr
  first : Byte
  rest : List Byte
deriving DecidableEq, Repr

/-- The four directions of a Move (55_host_interface.md R202). -/
inductive Dir where
  | up
  | down
  | left
  | right
deriving DecidableEq, Repr

/-- The actions of `make_move` (R202). -/
inductive Action where
  | move (d : Dir)
  | rotatePage
deriving DecidableEq, Repr

/-- What the host can do to the core, one at a time. -/
inductive HostInput where
  /-- `make_move(action)`, the one entry point (R200, R201). -/
  | makeMove (a : Action)
  /-- External patch application to one page's grid between two actions (R223). -/
  | patch (pg : PageId) (d : List Hunk)
  /-- The host's open `visited` policy adds a page id (R213, R218; log entry 12). -/
  | visitedSet (pg : PageId)
  /-- The host's open `visited` policy removes a page id (R213, R218; log entry 12). -/
  | visitedClear (pg : PageId)
deriving DecidableEq, Repr

/-- The whole state of the block (10_state.md section 1). -/
structure State where
  /-- The three registers (R20 to R26). -/
  regs : RegFile
  /-- The program counter (R27). -/
  pc : Addr
  /-- The player's location (R30). -/
  player : Player
  /-- `active_page` (R31). -/
  activePage : PageId
  /-- `page_instr_executed` (R33). -/
  pageInstrExecuted : Bool
  /-- `end_of_level` (R34). -/
  endOfLevel : Bool
  /-- `visited` (R35). -/
  visited : Bits256
  /-- Grids and trigger tables of the loaded pages (R36, 20_memory.md R56). -/
  memory : Memory
  /-- The constants of the run (R37). -/
  cfg : Config
  /-- The MODEL's own: the texts that Message triggers have emitted, oldest first (55_host_interface.md R216; log
  entry 15). -/
  messages : List String
  /-- The MODEL's own: what the host will do, next first (log entry 13). -/
  inputs : List HostInput
deriving DecidableEq, Repr

/-- Why the machine stops with a fault. There is no reason: the CPU raises no exception and every step has a next
state (40_cpu_step.md R116, 60_exceptions.md R240). -/
inductive Fault where
deriving DecidableEq, Repr

/-- Why a step is refused. -/
inductive Refusal where
  /-- Raised by an arm of `exec` whose instruction has no meaning yet; safe. No arm raises it: every instruction of
  the table has its meaning. -/
  | notModelled (mnemonic : String)
deriving DecidableEq, Repr

/-- What the level loader supplies when the machine is constructed: the named parameters of
70_reset_and_hazards.md R270. A default below is one the spec states. -/
structure LaunchArgs where
  /-- `RESET_DATA`, with the record's inert fields. -/
  data : Register
  /-- `RESET_PAGE`, with the record's inert fields. -/
  page : Register
  /-- `RESET_COMPARE`, with the record's inert fields. -/
  compare : Register
  /-- `RESET_PC`. -/
  pc : Addr
  /-- `RESET_PLAYER`. -/
  player : Player
  /-- `RESET_ACTIVE_PAGE`. -/
  activePage : PageId
  /-- `RESET_PAGE_INSTR_EXECUTED`. -/
  pageInstrExecuted : Bool := false
  /-- `RESET_VISITED`. -/
  visited : Bits256
  /-- `RESET_PAGES`: loaded ids, grids and trigger tables. -/
  pages : Memory
  /-- The configuration constants. -/
  cfg : Config
deriving DecidableEq, Repr

/-- The state after construction from the launch arguments (R270): `end_of_level` is false, nothing has been emitted,
and `inputs` is what the host is going to do. -/
def State.launch (l : LaunchArgs) (inputs : List HostInput) : State where
  regs := { data := l.data, page := l.page, compare := l.compare }
  pc := l.pc
  player := l.player
  activePage := l.activePage
  pageInstrExecuted := l.pageInstrExecuted
  endOfLevel := false
  visited := l.visited
  memory := l.pages
  cfg := l.cfg
  messages := []
  inputs := inputs

/-- The launch arguments the model names for its reset state: the spec states none (R41, R270). DESIGN CHOICE,
unsafe: log entries 2 to 4, 6, 7, 9 and 10. -/
def LaunchArgs.atReset : LaunchArgs where
  data := { value := 0, isProtected := false, name := "data" }
  page := { value := 0, isProtected := false, name := "page" }
  compare := { value := 0, isProtected := false, name := "compare" }
  pc := 0
  player := .pos 0 0
  activePage := 0
  visited := 0
  pages := []
  cfg := Config.atReset

/-- The machine right after reset. The source's nearest event is construction (R270); no level is loaded and the host
has issued no action. -/
def State.reset : State := State.launch LaunchArgs.atReset []

end Sys2Proof.Machine
end

