-- ==== Sys2Proof/Machine/Ops.lean ====
section
/-! DEFINITION. The named operations over registers, program counter, memory and the visited set. The hardware takes
no exception and returns from none (60_exceptions.md R240, R246, R247), so there is no such operation; the plain
write of the program counter by a trigger (R244) is in Machine/Sequencer.lean. -/

namespace Sys2Proof.Machine

/-- `x[i]`: the stored value of a register (00_scope.md R10). -/
def State.reg (s : State) : RegId → Byte
  | .data => s.regs.data.value
  | .page => s.regs.page.value
  | .compare => s.regs.compare.value

/-- `x[i] <- v` (00_scope.md R10). The flag `protected` is not consulted (10_state.md R26). -/
def State.setReg (s : State) (r : RegId) (v : Byte) : State :=
  match r with
  | .data => { s with regs := { s.regs with data := { s.regs.data with value := v } } }
  | .page => { s with regs := { s.regs with page := { s.regs.page with value := v } } }
  | .compare => { s with regs := { s.regs with compare := { s.regs.compare with value := v } } }

/-- `pc <- t` (00_scope.md R10). -/
def State.setPc (s : State) (t : Addr) : State := { s with pc := t }

/-- The advance `pc <- sat16(pc + 1)` (10_state.md R28, R29, 40_cpu_step.md R113). -/
def State.advancePc (s : State) : State := s.setPc (sat16 (s.pc.toNat + 1))

/-- What a byte of a loaded page that nothing has written reads as. DESIGN CHOICE, unsafe: log entry 8. -/
def unlistedByte : Byte := 0

/-- The stored byte at a linear address. -/
def Grid.read : Grid → Nat → Byte
  | [], _ => unlistedByte
  | (k, b) :: g, a => if k = a then b else Grid.read g a

/-- Store a byte, keeping the canonical form. -/
def Grid.write : Grid → Nat → Byte → Grid
  | [], a, v => if v = unlistedByte then [] else [(a, v)]
  | (k, b) :: g, a, v =>
    if a < k then (if v = unlistedByte then (k, b) :: g else (a, v) :: (k, b) :: g)
    else if a = k then (if v = unlistedByte then g else (a, v) :: g)
    else (k, b) :: Grid.write g a v

/-- The canonical form of a grid: addresses strictly rising, inside the grid, no entry equal to what an unlisted
address reads as. -/
abbrev Grid.wf (g : Grid) : Prop :=
  List.Pairwise (fun c d => c.1 < d.1) g ∧ ∀ c ∈ g, c.1 < 65536 ∧ c.2 ≠ unlistedByte

/-- The canonical form of a trigger table: positions strictly rising, so at most one trigger per packed position
(60_exceptions.md R245). -/
abbrev triggersWf (ts : List Trigger) : Prop :=
  List.Pairwise (fun t u : Trigger => t.position.toNat < u.position.toNat) ts

/-- The canonical form of the memory: page ids strictly rising, every grid and trigger table canonical. -/
abbrev Memory.wf (m : Memory) : Prop :=
  List.Pairwise (fun p q : Page => p.id.toNat < q.id.toNat) m ∧ ∀ p ∈ m, Grid.wf p.grid ∧ triggersWf p.triggers

/-- The loaded page of an id, if it is loaded (20_memory.md R56). -/
def Memory.page? : Memory → PageId → Option Page
  | [], _ => none
  | p :: m, pg => if p.id = pg then some p else Memory.page? m pg

/-- Change a loaded page in place; nothing happens when the id is not loaded. -/
def Memory.modify (m : Memory) (pg : PageId) (f : Page → Page) : Memory :=
  m.map fun p => if p.id = pg then f p else p

/-- The ids of the loaded pages. -/
def Memory.ids (m : Memory) : List PageId := m.map Page.id

/-- `MemRead(pg, a, 1)`: the stored byte; 0 on the null page (20_memory.md R57). -/
def memRead (s : State) (pg : PageId) (a : Addr) : Byte :=
  match s.memory.page? pg with
  | some p => p.grid.read a.toNat
  | none => 0

/-- Store one byte into the page's grid. -/
def Page.store (p : Page) (a : Addr) (v : Byte) : Page := { p with grid := p.grid.write a.toNat v }

/-- `MemWrite(pg, a, 1, v)`: discarded on the null page (20_memory.md R58). -/
def memWrite (s : State) (pg : PageId) (a : Addr) (v : Byte) : State :=
  { s with memory := s.memory.modify pg fun p => p.store a v }

end Sys2Proof.Machine

namespace Sys2Proof

/-- `Bits256.get` (55_host_interface.md R218). -/
def Bits256.get (b : Bits256) (i : Byte) : Bool := b.getLsbD i.toNat

/-- `Bits256.set` (R218). -/
def Bits256.set (b : Bits256) (i : Byte) : Bits256 := b ||| (1#256 <<< i.toNat)

/-- `Bits256.clear` (R218). -/
def Bits256.clear (b : Bits256) (i : Byte) : Bits256 := b &&& ~~~(1#256 <<< i.toNat)

end Sys2Proof
end

