-- ==== Sys2Proof/Machine/Codec.lean ====
section
/-! DEFINITION. The binary diff/patch codec: 50_diff_codec.md. Pure functions over stored bytes; none sees the
player. -/

namespace Sys2Proof.Machine

/-- The bytes of a hunk: byte `i` belongs at address `start + i` (R170). -/
def Hunk.bytes (h : Hunk) : List Byte := h.first :: h.rest

/-- The first address after a hunk (R173). -/
def Hunk.stop (h : Hunk) : Nat := h.start.toNat + h.bytes.length

/-- The scan's state: the hunks finished, and the one being built (R172). -/
structure DiffState where
  hunks : List Hunk
  cur : Option Hunk
deriving DecidableEq, Repr

/-- The bytes of a grid at `n` addresses from `a` on. -/
def readRun (g : Grid) (a n : Nat) : List Byte := (List.range n).map fun i => g.read (a + i)

/-- A new hunk at a differing address (R172). -/
def Hunk.begin (after : Grid) (a : Nat) : Hunk := ⟨BitVec.ofNat 16 a, after.read a, []⟩

/-- The hunk with everything up to address `a` appended: the unchanged bytes of the gap, then the differing one (R172). -/
def Hunk.extend (after : Grid) (a : Nat) (h : Hunk) : Hunk :=
  { h with rest := h.rest ++ readRun after h.stop (a - h.stop) ++ [after.read a] }

/-- One address of the scan (R172): an equal byte changes nothing; a differing one extends the hunk being built when the
gap is small enough, or starts a new hunk. -/
def diffStep (gap : Nat) (before after : Grid) (a : Nat) (st : DiffState) : DiffState :=
  if before.read a = after.read a then st
  else
    match st.cur with
    | none => { st with cur := some (Hunk.begin after a) }
    | some h =>
      if a - h.stop ≤ gap then { st with cur := some (h.extend after a) }
      else ⟨st.hunks ++ [h], some (Hunk.begin after a)⟩

/-- The scan of `n` addresses from `a` on, in ascending order (R172). -/
def diffScan (gap : Nat) (before after : Grid) : Nat → Nat → DiffState → DiffState
  | 0, _, st => st
  | n + 1, a, st => diffScan gap before after n (a + 1) (diffStep gap before after a st)

/-- The hunks of a finished scan (R172). -/
def DiffState.finish (st : DiffState) : List Hunk :=
  match st.cur with
  | none => st.hunks
  | some h => st.hunks ++ [h]

/-- The scan of `n` addresses from 0 on, with `GAP` the run's parameter `DIFF_MERGE_GAP` (R172, 00_scope.md R7). -/
def diffPrefix (c : Config) (n : Nat) (before after : Grid) : List Hunk :=
  (diffScan c.diffMergeGap before after n 0 ⟨[], none⟩).finish

/-- `diff(before, after)`: the scan of all 65,536 addresses (R172). -/
def diff (c : Config) (before after : Grid) : List Hunk := diffPrefix c 65536 before after

/-- Write a run of bytes from address `a` on; a byte past 65,535 is dropped (R175, R176). -/
def patchBytes : Grid → Nat → List Byte → Grid
  | g, _, [] => g
  | g, a, b :: bs => patchBytes (if a ≤ 65535 then g.write a b else g) (a + 1) bs

/-- Apply one hunk (R175). -/
def patchHunk (g : Grid) (h : Hunk) : Grid := patchBytes g h.start.toNat h.bytes

/-- `patch(G, d)`: the hunks in order, later ones overwriting earlier ones (R175). -/
def patch (g : Grid) (d : List Hunk) : Grid := d.foldl patchHunk g

/-- One record: start address low byte first, payload length minus 1, payload (R178). -/
def recordBytes (s : Nat) (payload : List Byte) : List Byte :=
  BitVec.ofNat 8 s :: BitVec.ofNat 8 (s / 256) :: BitVec.ofNat 8 (payload.length - 1) :: payload

/-- The records of a run of bytes at address `s`, 256 bytes each but the last (R179). The first argument bounds the
number of records. -/
def chunkRecords : Nat → Nat → List Byte → List Byte
  | _, _, [] => []
  | 0, _, _ :: _ => []
  | n + 1, s, b :: bs =>
    recordBytes s ((b :: bs).take 256) ++ chunkRecords n (s + 256) ((b :: bs).drop 256)

/-- The records of one hunk (R179). -/
def serializeHunk (h : Hunk) : List Byte := chunkRecords h.bytes.length h.start.toNat h.bytes

/-- Why `serialize` refuses: a hunk runs past address 65,535 (R180; log entry 19). -/
inductive SerializeRefusal where
  | hunkPastEnd
deriving DecidableEq, Repr

/-- `serialize(d)` (R179) under its precondition (R180). -/
def serialize (d : List Hunk) : Except SerializeRefusal (List Byte) :=
  if d.all fun h => decide (h.stop ≤ 65536) then .ok (d.flatMap serializeHunk) else .error .hunkPastEnd

/-- The one error value of the codec (R182, 60_exceptions.md R242). -/
inductive FormatError where
  | formatError
deriving DecidableEq, Repr

/-- Read records until the stream is used up (R181): at least 4 bytes for each, the fourth being the payload's first and
`m` more following it. The first argument bounds the number of records. -/
def readRecords : Nat → List Byte → Except FormatError (List Hunk)
  | _, [] => .ok []
  | n + 1, lo :: hi :: m :: b :: rest =>
    if m.toNat ≤ rest.length then
      match readRecords n (rest.drop m.toNat) with
      | .ok d => .ok (⟨pack hi lo, b, rest.take m.toNat⟩ :: d)
      | .error e => .error e
    else .error .formatError
  | _, _ :: _ => .error .formatError

/-- `deserialize(b)`: one hunk per record, or `FormatError` and nothing else (R181 to R183). -/
def deserialize (b : List Byte) : Except FormatError (List Hunk) := readRecords b.length b

/-- External patch application to one page's grid; discarded when the page is not loaded (55_host_interface.md R223,
20_memory.md R58). -/
def patchPage (s : State) (pg : PageId) (d : List Hunk) : State :=
  { s with memory := s.memory.modify pg fun p => { p with grid := patch p.grid d } }

end Sys2Proof.Machine
end

