-- ==== Sys2Proof/Machine/Flags.lean ====
section
/-! DEFINITION. The condition values. There is no flags register (10_state.md section 6): Compare writes one of three
values to the Compare register, and the conditional jumps test it. -/

namespace Sys2Proof.Machine

/-- The value Compare writes: unsigned comparison of Data with the immediate (43_compare.md R140). -/
def compareValue (d v : Byte) : Byte :=
  if d = v then 0x00 else if v.toNat < d.toNat then 0x01 else 0xFF

/-- JumpEqual's condition (44_cond_jump.md R145). -/
def takenEqual (c : Byte) : Bool := c == 0x00

/-- JumpLess's condition, the unsigned test `> 1`, not a sign test (R146). -/
def takenLess (c : Byte) : Bool := decide (0x01 < c.toNat)

/-- JumpGreater's condition (R147). -/
def takenGreater (c : Byte) : Bool := c == 0x01

end Sys2Proof.Machine
end

