-- ==== Sys2Proof/Machine/Opcodes.lean ====
section
/-! DEFINITION. The eight opcode bytes: 30_encoding.md R92. -/

namespace Sys2Proof.Machine

/-- `'a'`, Add. -/
def opAdd : Byte := 0x61
/-- `'c'`, Compare. -/
def opCompare : Byte := 0x63
/-- `'e'`, JumpEqual. -/
def opJumpEqual : Byte := 0x65
/-- `'g'`, JumpGreater. -/
def opJumpGreater : Byte := 0x67
/-- `'j'`, Jump. -/
def opJump : Byte := 0x6A
/-- `'l'`, JumpLess. -/
def opJumpLess : Byte := 0x6C
/-- `'p'`, Page. -/
def opPage : Byte := 0x70
/-- `'s'`, Swap. -/
def opSwap : Byte := 0x73

/-- The defined points of the opcode map (30_encoding.md R99). -/
def opcodes : List Byte :=
  [opAdd, opCompare, opJumpEqual, opJumpGreater, opJump, opJumpLess, opPage, opSwap]

/-- Whether a byte is one of the eight opcodes; every other byte decodes to None (30_encoding.md R100). -/
def isOpcode (op : Byte) : Bool := opcodes.contains op

end Sys2Proof.Machine
end

