-- ==== Sys2Proof/Syntax.lean ====
section
/-! DEFINITION. The instruction set: one constructor per row of spec/opcode_table.json, with operands already
assembled as 30_encoding.md R102 says. -/

namespace Sys2Proof

/-- The decoded instructions. `noneOp` is the decode outcome None of 47_none.md R160; it keeps the byte it was
decoded from, the table row's field `op` (log entry 17). -/
inductive Instr where
  /-- Row `a`, Add(v): 45_add.md R150. -/
  | add (v : Byte)
  /-- Row `c`, Compare(v): 43_compare.md R140. -/
  | compare (v : Byte)
  /-- Row `e`, JumpEqual(addr16): 44_cond_jump.md R145. -/
  | jumpEqual (target : Addr)
  /-- Row `g`, JumpGreater(addr16): 44_cond_jump.md R147. -/
  | jumpGreater (target : Addr)
  /-- Row `j`, Jump(addr16): 41_jump.md R130. -/
  | jump (target : Addr)
  /-- Row `l`, JumpLess(addr16): 44_cond_jump.md R146. -/
  | jumpLess (target : Addr)
  /-- Row `p`, Page(v): 46_page.md R155. -/
  | page (v : Byte)
  /-- Row `s`, Swap(addr16): 42_swap.md R135. -/
  | swap (target : Addr)
  /-- Row `none`, None: 47_none.md R160. -/
  | noneOp (op : Byte)
deriving DecidableEq, Repr

/-- The three formats of 30_encoding.md R91. -/
inductive Format where
  /-- One byte, `op`. -/
  | n
  /-- Two bytes, `op v`. -/
  | v
  /-- Three bytes, `op b1 b2`. -/
  | a
deriving DecidableEq, Repr

end Sys2Proof
end

