-- ==== Sys2Proof/WellFormed.lean ====
section
/-! DEFINITION. Which terms of `Instr` an encoding stands for. -/

namespace Sys2Proof

/-- Every operand value is legal (30_encoding.md R101); the one check is that a None keeps a byte that is no
opcode (47_none.md R160). -/
def Instr.wellFormed : Instr → Bool
  | .add _ => true
  | .compare _ => true
  | .jumpEqual _ => true
  | .jumpGreater _ => true
  | .jump _ => true
  | .jumpLess _ => true
  | .page _ => true
  | .swap _ => true
  | .noneOp op => !Machine.isOpcode op

end Sys2Proof
end

