-- ==== Sys2Proof/Decode.lean ====
section
/-! DEFINITION. The decoder and the encoder: 30_encoding.md and 40_cpu_step.md R112. -/

namespace Sys2Proof

open Machine

/-- `addr16` from the two operand bytes (R96). -/
def assembleAddr (o : AddrOperandOrder) (b1 b2 : Byte) : Addr :=
  match o with
  | .xy => pack b1 b2
  | .yx => pack b2 b1

/-- The instruction of an effective opcode byte and the two operand bytes to its right: the case table of R112.
Total: a byte that is no opcode decodes to None (R100). -/
def decode (o : AddrOperandOrder) (op b1 b2 : Byte) : Instr :=
  if op = opJump then .jump (assembleAddr o b1 b2)
  else if op = opSwap then .swap (assembleAddr o b1 b2)
  else if op = opCompare then .compare b1
  else if op = opJumpEqual then .jumpEqual (assembleAddr o b1 b2)
  else if op = opJumpLess then .jumpLess (assembleAddr o b1 b2)
  else if op = opJumpGreater then .jumpGreater (assembleAddr o b1 b2)
  else if op = opAdd then .add b1
  else if op = opPage then .page b1
  else .noneOp op

/-- Why a row of cells holds no instruction. -/
inductive DecodeReject where
  /-- There is no cell, hence no opcode byte. No encoding is ever rejected (R100). -/
  | noOpcodeCell
deriving DecidableEq, Repr

/-- The instruction at the left end of a row of cells. A cell past the end of the row is past the grid's edge and
reads 0 (R95). -/
def decodeRow (o : AddrOperandOrder) : List Byte → Except DecodeReject Instr
  | [] => .error .noOpcodeCell
  | op :: rest => .ok (decode o op (rest.getD 0 0) (rest.getD 1 0))

/-- The format of an instruction, fixed by its opcode alone (R91). -/
def Instr.format : Instr → Format
  | .add _ => .v
  | .compare _ => .v
  | .jumpEqual _ => .a
  | .jumpGreater _ => .a
  | .jump _ => .a
  | .jumpLess _ => .a
  | .page _ => .v
  | .swap _ => .a
  | .noneOp _ => .n

/-- How many bytes an instruction of a format has (R91). -/
def Format.bytes : Format → Nat
  | .n => 1
  | .v => 2
  | .a => 3

/-- The two operand bytes of an `addr16`, left to right (R96). -/
def addrBytes (o : AddrOperandOrder) (a : Addr) : List Byte :=
  match o with
  | .xy => [xof a, yof a]
  | .yx => [yof a, xof a]

/-- The bytes of an instruction, left to right along its row (R91, R92). -/
def encode (o : AddrOperandOrder) : Instr → List Byte
  | .add v => [opAdd, v]
  | .compare v => [opCompare, v]
  | .jumpEqual t => opJumpEqual :: addrBytes o t
  | .jumpGreater t => opJumpGreater :: addrBytes o t
  | .jump t => opJump :: addrBytes o t
  | .jumpLess t => opJumpLess :: addrBytes o t
  | .page v => [opPage, v]
  | .swap t => opSwap :: addrBytes o t
  | .noneOp op => [op]

/-- The three cells of an instruction that spec/opcode_table.json writes as the number `w` of `nbits` bits. The table
writes the opcode cell as the MOST significant byte (its `note`, and its `fixed` fields); a cell the table gives no
bits is 0. DEDUCED, log entry 1. -/
def tableWordBytes (nbits w : Nat) : List Byte :=
  let n := nbits / 8
  (List.range 3).map fun k => if k < n then BitVec.ofNat 8 (w >>> (8 * (n - 1 - k))) else 0

/-- The instruction the decoder reads from an instruction numbered as spec/opcode_table.json numbers it, with the
table's operand order `xy`. Fewer than 8 bits hold no opcode cell; more than 24 are no row of the table. -/
def decodeTableWord (nbits w : Nat) : Option Instr :=
  if 8 ≤ nbits ∧ nbits ≤ 24 then
    match decodeRow .xy (tableWordBytes nbits w) with
    | .ok i => some i
    | .error _ => none
  else none

end Sys2Proof
end

