-- ==== Sys2Proof/Machine/Overlay.lean ====
section
/-! DEFINITION. The overlay-bit masking logic: 21_overlay.md. It reads state and never writes it (R83). -/

namespace Sys2Proof.Machine

/-- `player_mask = 1 << PLAYER_OFFSET` (R80). -/
def playerMask (c : Config) : Byte := 1#8 <<< c.playerOffset.val

/-- The pure function `effective(stored, is_player_here, mask)` (R83). -/
def effective (stored : Byte) (here : Bool) (mask : Byte) : Byte := if here then stored ||| mask else stored

/-- Whether the player occupies cell `a` of page `pg`: on its active page only (R81). -/
def playerAtCell (s : State) (pg : PageId) (a : Addr) : Bool :=
  decide (s.player = .pos (xof a) (yof a) ∧ s.activePage = pg)

/-- Whether the player occupies register `r` (R82). -/
def playerAtReg (s : State) (r : RegId) : Bool := decide (s.player = .reg r)

/-- `MemReadEff(pg, a)` (R81). -/
def memReadEff (s : State) (pg : PageId) (a : Addr) : Byte :=
  effective (memRead s pg a) (playerAtCell s pg a) (playerMask s.cfg)

/-- `xe[i]` (R82). -/
def regEff (s : State) (r : RegId) : Byte := effective (s.reg r) (playerAtReg s r) (playerMask s.cfg)

/-- `accessible(v)` (R85). -/
def accessible (c : Config) (v : Byte) : Bool := v &&& playerMask c == 0

end Sys2Proof.Machine
end

