-- ==== Sys2Proof/Machine/Operands.lean ====
section
/-! DEFINITION. Operand forms and the instruction fetch: 30_encoding.md R95 to R98, 40_cpu_step.md R111, R112,
10_state.md R25. -/

namespace Sys2Proof.Machine

/-- Read a byte under a view: through the overlay or not. -/
def memReadView (s : State) (v : View) (pg : PageId) (a : Addr) : Byte :=
  match v with
  | .effective => memReadEff s pg a
  | .stored => memRead s pg a

/-- `Operand(pg, A, k)`: the byte `k` columns to the right in the same row; 0 past the right edge (R95, R98). -/
def operand (s : State) (pg : PageId) (a : Addr) (k : Nat) : Byte :=
  if (xof a).toNat + k > 255 then 0
  else memReadView s s.cfg.operandView pg (pack (BitVec.ofNat 8 ((xof a).toNat + k)) (yof a))

/-- `ReadInstruction(pg, A)`: the opcode always through the overlay (R93, R112). -/
def readInstruction (s : State) (pg : PageId) (a : Addr) : Instr :=
  decode s.cfg.addrOperandOrder (memReadEff s pg a) (operand s pg a 1) (operand s pg a 2)

/-- The CPU page of a step, `xe[PAGE]` (R111). -/
def cpuPage (s : State) : PageId := regEff s .page

/-- A register as an instruction operand: the stored value, or the effective one under the alternative
`REG_OPERAND_VIEW` (10_state.md R25). -/
def regOperand (s : State) (r : RegId) : Byte :=
  match s.cfg.regOperandView with
  | .stored => s.reg r
  | .effective => regEff s r

end Sys2Proof.Machine
end

