-- ==== Sys2Proof/Machine/ControlFlow.lean ====
section
/-! DEFINITION. Jump and the conditional jumps: 41_jump.md, 44_cond_jump.md. -/

namespace Sys2Proof.Machine

/-- The advance, then the target when the condition holds. -/
def jumpIf (taken : Bool) (target : Addr) (s : State) : State :=
  if taken then s.advancePc.setPc target else s.advancePc

/-- Jump(addr16): R130. -/
def execJump (target : Addr) (s : State) : Host.Outcome State Fault Refusal :=
  .next (s.advancePc.setPc target)

/-- JumpEqual(addr16): R145. -/
def execJumpEqual (target : Addr) (s : State) : Host.Outcome State Fault Refusal :=
  .next (jumpIf (takenEqual (regOperand s .compare)) target s)

/-- JumpLess(addr16): R146. -/
def execJumpLess (target : Addr) (s : State) : Host.Outcome State Fault Refusal :=
  .next (jumpIf (takenLess (regOperand s .compare)) target s)

/-- JumpGreater(addr16): R147. -/
def execJumpGreater (target : Addr) (s : State) : Host.Outcome State Fault Refusal :=
  .next (jumpIf (takenGreater (regOperand s .compare)) target s)

end Sys2Proof.Machine
end

