-- ==== Sys2Proof/Machine/DataOps.lean ====
section
/-! DEFINITION. Swap, Compare and Add: 42_swap.md, 43_compare.md, 45_add.md. -/

namespace Sys2Proof.Machine

/-- The player's part of a Swap at `(pg, a)`: it travels with the exchanged byte (R135). -/
def carryPlayer (pg : PageId) (a : Addr) (s : State) : State :=
  if s.player = .pos (xof a) (yof a) then { s with player := .reg .data }
  else if s.player = .reg .data then { s with player := .pos (xof a) (yof a), activePage := pg }
  else s

/-- The exchange of the stored byte at `(pg, a)` with the stored Data register, the player with it (R135). -/
def swapAt (pg : PageId) (a : Addr) (s : State) : State :=
  carryPlayer pg a ((memWrite s pg a (s.reg .data)).setReg .data (memRead s pg a))

/-- Swap(addr16): R135, on the CPU page sampled before the instruction acts (40_cpu_step.md R111). -/
def execSwap (target : Addr) (s : State) : Host.Outcome State Fault Refusal :=
  .next (swapAt (cpuPage s) target s.advancePc)

/-- Compare(v): R140. -/
def execCompare (v : Byte) (s : State) : Host.Outcome State Fault Refusal :=
  .next (s.advancePc.setReg .compare (compareValue (regOperand s .data) v))

/-- Add(v): R150, addition modulo 256. -/
def execAdd (v : Byte) (s : State) : Host.Outcome State Fault Refusal :=
  .next (s.advancePc.setReg .data (regOperand s .data + v))

end Sys2Proof.Machine
end

