-- ==== Sys2Proof/Machine/PageNone.lean ====
section
/-! DEFINITION. Page and None: 46_page.md, 47_none.md. -/

namespace Sys2Proof.Machine

/-- The page switch of the Page instruction (R155). -/
def switchPage (v : PageId) (s : State) : State :=
  { s.setReg .page v with activePage := v, pageInstrExecuted := true }

/-- Page(v): R155. With page switching disabled only the advance happens. -/
def execPage (v : Byte) (s : State) : Host.Outcome State Fault Refusal :=
  .next (if s.cfg.pageSwitchEnabled then switchPage v s.advancePc else s.advancePc)

/-- None: R160. Nothing happens; in particular `pc` is not advanced. -/
def execNone (_op : Byte) (s : State) : Host.Outcome State Fault Refusal :=
  .next s

end Sys2Proof.Machine
end

