-- ==== Sys2Proof/Machine/Dispatch.lean ====
section
/-! DEFINITION. The dispatch from an instruction to its meaning, one arm per row of spec/opcode_table.json. -/

namespace Sys2Proof.Machine

def exec (i : Instr) (s : State) : Host.Outcome State Fault Refusal :=
  match i with
  | .add v => Sys2Proof.Machine.execAdd v s
  | .compare v => Sys2Proof.Machine.execCompare v s
  | .jumpEqual target => Sys2Proof.Machine.execJumpEqual target s
  | .jumpGreater target => Sys2Proof.Machine.execJumpGreater target s
  | .jump target => Sys2Proof.Machine.execJump target s
  | .jumpLess target => Sys2Proof.Machine.execJumpLess target s
  | .page v => Sys2Proof.Machine.execPage v s
  | .swap target => Sys2Proof.Machine.execSwap target s
  | .noneOp op => Sys2Proof.Machine.execNone op s

end Sys2Proof.Machine
end

