-- ==== Sys2Proof/Machine/Cpu.lean ====
section
/-! DEFINITION. The CPU step cycle: 40_cpu_step.md. -/

namespace Sys2Proof.Machine

/-- The gate: the player's active page is the CPU page (R114). -/
def gate (s : State) : Bool := s.activePage == cpuPage s

/-- The instruction a step fetches: at `pc` of the CPU page (R110, R112). -/
def fetched (s : State) : Instr := readInstruction s (cpuPage s) s.pc

/-- `CpuStep` (R110): nothing when the gate is false, else the fetched instruction. -/
def cpuStep (s : State) : Host.Outcome State Fault Refusal :=
  if gate s then exec (fetched s) s else .next s

end Sys2Proof.Machine
end

