-- ==== Sys2Proof/Machine/Sequencer.lean ====
section
/-! DEFINITION. The second agent, the host's game-state sequencer: 55_host_interface.md. -/

namespace Sys2Proof.Machine

/-- The step `(dx, dy)` of a direction: down is one row down, right one column right (R202, R203). -/
def Dir.dx : Dir → Int
  | .up => 0
  | .down => 0
  | .left => -1
  | .right => 1

/-- See `Dir.dx`. -/
def Dir.dy : Dir → Int
  | .up => -1
  | .down => 1
  | .left => 0
  | .right => 0

/-- The candidate cell of a movement under a wrap policy; none when Block rejects it (R203, R204, R205). WrapGrid
adds 1 or 0x100 to the linear address with 16-bit wraparound. -/
def moveCandidate (w : WrapMode) (d : Dir) (x y : Byte) : Option (Byte × Byte) :=
  let cx : Int := x.toNat + d.dx
  let cy : Int := y.toNat + d.dy
  match w with
  | .block =>
    if 0 ≤ cx ∧ cx ≤ 255 ∧ 0 ≤ cy ∧ cy ≤ 255 then some (BitVec.ofInt 8 cx, BitVec.ofInt 8 cy) else none
  | .wrapLine => some (BitVec.ofInt 8 cx, BitVec.ofInt 8 cy)
  | .wrapGrid =>
    let a : Addr := BitVec.ofInt 16 ((pack x y).toNat + d.dx * 0x100 + d.dy)
    some (xof a, yof a)

/-- What the first phase of a host action did to the player's place in the grid. -/
inductive Landing where
  /-- A Move relocated the player within the grid. -/
  | relocated
  /-- A Move of a player in the grid was blocked or rejected. -/
  | blocked
  /-- A Move on the register list, or a RotatePage. -/
  | elsewhere
deriving DecidableEq, Repr

/-- A Move of a player at `(x, y)` (R206, R207). -/
def gridMove (d : Dir) (x y : Byte) (s : State) : State × Landing :=
  match moveCandidate s.cfg.wrapMode d x y with
  | none => (s, .blocked)
  | some (cx, cy) =>
    if accessible s.cfg (memReadEff s s.activePage (pack cx cy)) then ({ s with player := .pos cx cy }, .relocated)
    else (s, .blocked)

/-- The index of a register in the register list (10_state.md R21). -/
def RegId.index : RegId → Nat
  | .data => 0
  | .page => 1
  | .compare => 2

/-- The register at an index of the list, if there is one: `N_REG` is 3 (10_state.md R21). -/
def regAt : Nat → Option RegId
  | 0 => some .data
  | 1 => some .page
  | 2 => some .compare
  | _ => none

/-- The register a Move names from a register: Up the one before, Down the one after, no wrap; Left and Right none
(R209). -/
def regMoveDest (d : Dir) (r : RegId) : Option RegId :=
  match d with
  | .up => if r.index = 0 then none else regAt (r.index - 1)
  | .down => regAt (r.index + 1)
  | .left => none
  | .right => none

/-- A Move of a player on register `r`; the active page is read after the player has moved (R209). -/
def registerMove (d : Dir) (r : RegId) (s : State) : State :=
  match regMoveDest d r with
  | none => s
  | some dest =>
    if accessible s.cfg (regEff s dest) then
      { s with player := .reg dest, activePage := regEff { s with player := .reg dest } .page }
    else s

/-- The next visited page id after `c`, at most `n` candidates, 255 wrapping to 1 (R211). -/
def rotateSearch (visited : Bits256) : Nat → PageId → Option PageId
  | 0, _ => none
  | n + 1, c =>
    let c' : PageId := if c.toNat ≥ 255 then 1 else c + 1
    if visited.get c' then some c' else rotateSearch visited n c'

/-- Whether the rotation rule allows a RotatePage now (R212). -/
def rotateAllowed (s : State) : Bool :=
  match s.cfg.rotateRule with
  | .always => true
  | .never => false
  | .afterPageInstruction => s.pageInstrExecuted

/-- RotatePage (R211, R212): legal only while the player is in the grid. -/
def rotatePage (s : State) : State :=
  match s.player with
  | .reg _ => s
  | .pos _ _ =>
    if rotateAllowed s then
      match rotateSearch s.visited 255 s.activePage with
      | some c => { s with activePage := c }
      | none => s
    else s

/-- Phase 1 of `make_move` (R201): perform the action. -/
def performAction (a : Action) (s : State) : State × Landing :=
  match a, s.player with
  | .move d, .pos x y => gridMove d x y s
  | .move d, .reg r => (registerMove d r s, .elsewhere)
  | .rotatePage, _ => (rotatePage s, .elsewhere)

/-- `is_active()` (R214). -/
def Trigger.isActive (t : Trigger) : Bool := !(t.oneTime && t.triggered)

/-- The triggers of a page; the null page has none (R214). -/
def triggerTable (s : State) (pg : PageId) : List Trigger :=
  match s.memory.page? pg with
  | some p => p.triggers
  | none => []

/-- Trigger lookup by packed position; an absent one is no error (R214). -/
def findTrigger (ts : List Trigger) (a : Addr) : Option Trigger := ts.find? fun t => t.position = a

/-- Mark the trigger at a position triggered (R215). -/
def Page.markTriggered (a : Addr) (p : Page) : Page :=
  { p with triggers := p.triggers.map fun t => if t.position = a then { t with triggered := true } else t }

/-- A SetProgramCounter trigger: the optional register reset, then a plain write of `pc`; nothing is saved (R216,
60_exceptions.md R244, R246). -/
def redirect (target : Addr) (s : State) : State :=
  if s.cfg.triggerResetsRegs then
    ((s.setReg .data s.cfg.triggerResetData).setReg .compare s.cfg.triggerResetCompare).setPc target
  else s.setPc target

/-- Apply a trigger's effect (R216). -/
def applyEffect (e : Effect) (s : State) : State :=
  match e with
  | .setProgramCounter target => redirect target s
  | .endOfLevel => { s with endOfLevel := true }
  | .message text => { s with messages := s.messages ++ [text], endOfLevel := s.endOfLevel || text == "WIN" }

/-- Whether triggers are evaluated after this landing: when the player landed, and under `TRIGGER_ON_BLOCKED_MOVE`
also after a blocked Move (R215; log entry 16). -/
def evaluatesTriggers (c : Config) : Landing → Bool
  | .relocated => true
  | .blocked => c.triggerOnBlockedMove
  | .elsewhere => false

/-- Fire the trigger of page `pg` at `a`, if there is an active one (R215). -/
def fireAt (pg : PageId) (a : Addr) (s : State) : State :=
  match findTrigger (triggerTable s pg) a with
  | none => s
  | some t =>
    if t.isActive then applyEffect t.effect { s with memory := s.memory.modify pg (Page.markTriggered a) } else s

/-- Phase 2 of `make_move` (R215). -/
def evaluateTriggers (l : Landing) (s : State) : State :=
  match s.player with
  | .reg _ => s
  | .pos x y => if evaluatesTriggers s.cfg l then fireAt s.activePage (pack x y) s else s

/-- The state phase 3 starts from: phases 1 and 2 of an action (R201). -/
def beforeCpuStep (a : Action) (s : State) : State :=
  evaluateTriggers (performAction a s).2 (performAction a s).1

/-- `make_move(action)` (R201): the action, the triggers, then the CPU's one step. -/
def makeMove (a : Action) (s : State) : Host.Outcome State Fault Refusal := cpuStep (beforeCpuStep a s)

/-- One host input (R200, R223, R213). Only `make_move` gives the CPU a step. -/
def hostInput (h : HostInput) (s : State) : Host.Outcome State Fault Refusal :=
  match h with
  | .makeMove a => makeMove a s
  | .patch pg d => .next (patchPage s pg d)
  | .visitedSet pg => .next { s with visited := s.visited.set pg }
  | .visitedClear pg => .next { s with visited := s.visited.clear pg }

/-- One transition of the block: the next host input, or nothing when the host issues no action (40_cpu_step.md R117,
70_reset_and_hazards.md R274; log entry 13). -/
def transition (s : State) : Host.Outcome State Fault Refusal :=
  match s.inputs with
  | [] => .next s
  | h :: rest => hostInput h { s with inputs := rest }

end Sys2Proof.Machine
end

