-- ==== Sys2Proof/Machine/Load.lean ====
section
/-! DEFINITION. Placing one instruction where the next step fetches it. The level loader is outside the spec
(00_scope.md R5), so this stands for it: log entry 14. -/

namespace Sys2Proof.Machine

/-- The memory with the page loaded, all zero and without triggers if it was not. -/
def Memory.ensure : Memory → PageId → Memory
  | [], pg => [⟨pg, [], []⟩]
  | p :: m, pg =>
    if p.id = pg then p :: m
    else if pg.toNat < p.id.toNat then ⟨pg, [], []⟩ :: p :: m
    else p :: Memory.ensure m pg

/-- Store bytes along row `y` from column `x` on. -/
def storeRow (s : State) (pg : PageId) (x y : Byte) : List Byte → State
  | [] => s
  | b :: bs => storeRow (memWrite s pg (pack x y) b) pg (x + 1) y bs

/-- Where an instruction is placed: at `pc`, or in column 0 of the same row when its operands would fall past the
right edge (30_encoding.md R95). -/
def loadAddr (pc : Addr) : Addr := if (xof pc).toNat ≤ 253 then pc else pack 0 (yof pc)

/-- The state whose next transition runs the instruction with these bytes. What 70_reset_and_hazards.md R273 asks of a
level is arranged: the page of the Page register is loaded and holds the bytes, `pc` names the opcode cell, and the
active page is the CPU page. The player is parked on the Compare register, where it covers no cell and no Page
register; and the host's next action is a RotatePage, which does nothing while the player is on a register (55_host_interface.md
R212), so that the CPU gets its step. -/
def placeInstruction (s : State) (bytes : List Byte) : State :=
  let pg := s.reg .page
  let a := loadAddr s.pc
  let s' : State :=
    { s with
      pc := a
      player := .reg .compare
      activePage := pg
      memory := s.memory.ensure pg
      inputs := .makeMove .rotatePage :: s.inputs }
  storeRow s' pg (xof a) (yof a) bytes

end Sys2Proof.Machine
end

