-- ==== Sys2Proof/Machine/Step.lean ====
section
/-! DEFINITION. The step of the machine, and the placing of an instruction for it. -/

namespace Sys2Proof.Machine

/-- One step: one host input, processed to completion (00_scope.md R2, 20_memory.md R66). -/
def step (s : State) : Host.Outcome State Fault Refusal := transition s

/-- `s` with the instruction that spec/opcode_table.json numbers `w` stored where the next step fetches it. -/
def State.withFetchWord (s : State) (nbits w : Nat) : State := placeInstruction s (tableWordBytes nbits w)

end Sys2Proof.Machine
end

