-- ==== Sys2Proof/Machine/Queries.lean ====
section
/-! DEFINITION. The host's read-only queries: 55_host_interface.md section 7. None changes state (R219).
`read_instruction` is `readInstruction` (R221), `accessible` and `player_mask` are those of Machine/Overlay.lean. -/

namespace Sys2Proof.Machine

/-- `effective_value(page, position)` (R220). -/
def effectiveValue (s : State) (pg : PageId) (x y : Byte) : Byte := memReadEff s pg (pack x y)

/-- `current_page()` (R220). -/
def currentPage (s : State) : PageId := s.activePage

/-- Whether an instruction is the decode outcome None. -/
def isNone : Instr → Bool
  | .noneOp _ => true
  | .add _ => false
  | .compare _ => false
  | .jumpEqual _ => false
  | .jumpGreater _ => false
  | .jump _ => false
  | .jumpLess _ => false
  | .page _ => false
  | .swap _ => false

/-- The lowest row reached going up from row `y` while the rows above satisfy `p`. -/
def extendUp (p : Nat → Bool) : Nat → Nat
  | 0 => 0
  | y + 1 => if p y then extendUp p y else y + 1

/-- The highest row reached going down from row `y` while the rows below satisfy `p`, at most `n` rows. -/
def extendDown (p : Nat → Bool) : Nat → Nat → Nat
  | 0, y => y
  | n + 1, y => if p (y + 1) then extendDown p n (y + 1) else y

/-- Whether row `r` of column `x` holds an instruction on the active page (R222). -/
def rowHasInstr (s : State) (x : Byte) (r : Nat) : Bool :=
  !isNone (readInstruction s s.activePage (pack x (BitVec.ofNat 8 r)))

/-- `instruction_range(pc)`: the maximal row interval of the same column around `pc` that decodes to instructions;
nothing when `pc` decodes to None (R222). -/
def instructionRange (s : State) (pc : Addr) : Option (Nat × Nat) :=
  let y := (yof pc).toNat
  if rowHasInstr s (xof pc) y then
    some (extendUp (rowHasInstr s (xof pc)) y, extendDown (rowHasInstr s (xof pc)) (255 - y) y)
  else none

end Sys2Proof.Machine
end

