-- ==== Sys2Proof/Safety.lean ====
section
/-! DEFINITION. The terms in which claims speak: what two states have in common, and what a good state is. -/

namespace Sys2Proof.Machine

/-- The invariant of the machine: the memory keeps its canonical form. (That exactly one variant of `player` is active
and that a register index is in range, 10_state.md R39, hold by the type of `player`.) -/
abbrev State.inv (s : State) : Prop := Memory.wf s.memory

/-- Every stored byte reads as before. -/
def SameBytes (s t : State) : Prop := ∀ pg a, memRead t pg a = memRead s pg a

/-- Every stored byte but the one at `(pg, a)` reads as before. -/
def SameBytesExcept (pg : PageId) (a : Addr) (s t : State) : Prop :=
  ∀ pg' a', ¬(pg' = pg ∧ a' = a) → memRead t pg' a' = memRead s pg' a'

/-- The stored values of the registers other than `r` are as before. -/
def SameRegsExcept (r : RegId) (s t : State) : Prop := ∀ r', r' ≠ r → t.reg r' = s.reg r'

/-- All three stored register values are as before. -/
def SameRegs (s t : State) : Prop := ∀ r, t.reg r = s.reg r

/-- The player and its active page are as before. -/
def SamePlace (s t : State) : Prop := t.player = s.player ∧ t.activePage = s.activePage

/-- What construction fixes for a run: the configuration, the set of loaded pages, and the inert fields of the register
records (10_state.md R26, R37, 20_memory.md R56). -/
def SameConstants (s t : State) : Prop :=
  t.cfg = s.cfg ∧ t.memory.ids = s.memory.ids ∧
  t.regs.data.isProtected = s.regs.data.isProtected ∧ t.regs.data.name = s.regs.data.name ∧
  t.regs.page.isProtected = s.regs.page.isProtected ∧ t.regs.page.name = s.regs.page.name ∧
  t.regs.compare.isProtected = s.regs.compare.isProtected ∧ t.regs.compare.name = s.regs.compare.name

/-- The state only the host writes is as before: trigger tables, `visited`, `end_of_level`, the messages and the pending
inputs (10_state.md section 1). -/
def SameHostState (s t : State) : Prop :=
  (∀ pg, triggerTable t pg = triggerTable s pg) ∧ t.visited = s.visited ∧ t.endOfLevel = s.endOfLevel ∧
  t.messages = s.messages ∧ t.inputs = s.inputs

/-- What an instruction that writes registers and `pc` alone leaves: every stored byte, the player and its page, the flag
of the Page instruction, and all the host's state and constants. -/
def Untouched (s t : State) : Prop :=
  SameBytes s t ∧ SamePlace s t ∧ t.pageInstrExecuted = s.pageInstrExecuted ∧ SameHostState s t ∧ SameConstants s t

/-- Where `pc` stands after the advance: the next address, but 0xFFFF stays (10_state.md R29). -/
def advanced (pc : Addr) : Addr := if pc = 0xFFFF then 0xFFFF else pc + 1

/-- The step from `s` runs instruction `i` in state `u`: the next input is an action, `u` is the state after its movement
and triggers, the gate holds there and `i` is what the CPU fetches (55_host_interface.md R201, 40_cpu_step.md R110). -/
def Executes (s u : State) (i : Instr) : Prop :=
  ∃ a rest, s.inputs = .makeMove a :: rest ∧ u = beforeCpuStep a { s with inputs := rest } ∧
    gate u = true ∧ fetched u = i

/-- The step from `s` fires a trigger with effect `e`: the next input is an action after which triggers are evaluated, and
the player then stands on the key of an active trigger of its active page (55_host_interface.md R215). -/
def FiresTrigger (s : State) (e : Effect) : Prop :=
  ∃ a rest x y trigger, s.inputs = .makeMove a :: rest ∧
    evaluatesTriggers s.cfg (performAction a { s with inputs := rest }).2 = true ∧
    (performAction a { s with inputs := rest }).1.player = .pos x y ∧
    findTrigger (triggerTable s (performAction a { s with inputs := rest }).1.activePage) (pack x y) = some trigger ∧
    trigger.isActive = true ∧ trigger.effect = e

/-- A safe outcome: the machine goes on. -/
def Continues (o : Host.Outcome State Fault Refusal) : Prop := ∃ t, o = .next t

end Sys2Proof.Machine
end

