-- ==== Sys2Proof/Certificates/Slice0/Obligations.lean ====
section
/-! DEFINITION. The statements for the provers. Each docstring names the rules of spec/ a statement rests on. Every
statement holds for every configuration: the configuration is part of the state. A docstring that names a decision D<n>
rests, for that clause, on a choice that spec/92_eei_decisions.md marks as the spec's own and the model takes over (log
entry 20); such a clause is no rule of the source. -/

open Sys2Proof Sys2Proof.Machine

/-! ## Encoding -/

/-- 30_encoding.md R91, R92, R96 (decisions D3, D6): decoding an encoded well-formed instruction gives it back, whatever lies to its right
in the row, under either operand order. -/
def Obligations.DecodeEncodeRoundTrip : Prop :=
  ∀ (o : AddrOperandOrder) (i : Instr) (rest : List Byte),
    i.wellFormed = true → decodeRow o (encode o i ++ rest) = .ok i

/-- 30_encoding.md R91, R100, R101 (decisions D3, D6): every three bytes decode to a well-formed instruction whose encoding is the bytes its
format has, so no bit of an encoding is dropped. -/
def Obligations.EncodeDecodeRoundTrip : Prop :=
  ∀ (o : AddrOperandOrder) (op b1 b2 : Byte),
    (decode o op b1 b2).wellFormed = true ∧
    encode o (decode o op b1 b2) = [op, b1, b2].take (decode o op b1 b2).format.bytes

/-- 30_encoding.md R92 and 95_test_vectors.md section 4 (decisions D3, D6, D25): written-out rows decode to the instructions they stand for. -/
def Obligations.SampleRowsDecode : Prop :=
  decodeRow .xy [0x6A, 0x10, 0x00] = .ok (.jump 0x1000) ∧
  decodeRow .xy [0x65, 0x10, 0x04] = .ok (.jumpEqual 0x1004) ∧
  decodeRow .xy [0x63, 0x05, 0x77] = .ok (.compare 0x05) ∧
  decodeRow .xy [0x6A, 0x12] = .ok (.jump 0x1200) ∧
  decodeRow .xy [0x61] = .ok (.add 0x00) ∧
  decodeRow .xy [0x70, 0x02] = .ok (.page 0x02) ∧
  decodeRow .xy [0x73, 0x30, 0x01] = .ok (.swap 0x3001) ∧
  decodeRow .xy [0x4A, 0x10, 0x00] = .ok (.noneOp 0x4A)

/-- 30_encoding.md R92, R99, R100 (decision D6): exactly eight bytes decode to an instruction, every other one to None. -/
def Obligations.OnlyEightBytesDecodeToInstructions : Prop :=
  ∀ (o : AddrOperandOrder) (op b1 b2 : Byte),
    isNone (decode o op b1 b2) = true ↔ op ∉ ([0x61, 0x63, 0x65, 0x67, 0x6A, 0x6C, 0x70, 0x73] : List Byte)

/-- 21_overlay.md R87, under the mask 0x40: the player never changes a stored opcode, and the stored bytes that become an
opcode under the player are the eight opcodes with bit 6 clear. -/
def Obligations.OverlayMakesOpcodes : Prop :=
  ∀ b : Byte,
    (b ∈ ([0x61, 0x63, 0x65, 0x67, 0x6A, 0x6C, 0x70, 0x73] : List Byte) → effective b true 0x40 = b) ∧
    (effective b true 0x40 ∈ ([0x61, 0x63, 0x65, 0x67, 0x6A, 0x6C, 0x70, 0x73] : List Byte) ∧
        b ∉ ([0x61, 0x63, 0x65, 0x67, 0x6A, 0x6C, 0x70, 0x73] : List Byte) ↔
      b ∈ ([0x2A, 0x33, 0x23, 0x25, 0x2C, 0x27, 0x21, 0x30] : List Byte))

/-! ## Fetch and operands -/

/-- 30_encoding.md R95, R98 (decisions D4, D25): operand `k` is the byte `k` columns to the right in the same row, read through the overlay or not
as `OPERAND_VIEW` says; past column 255 it is 0, each operand on its own. -/
def Obligations.OperandEdgeRule : Prop :=
  ∀ (s : State) (pg : PageId) (a : Addr) (k : Nat), k = 1 ∨ k = 2 →
    ((xof a).toNat + k > 255 → operand s pg a k = 0) ∧
    ((xof a).toNat + k ≤ 255 → s.cfg.operandView = .effective →
      operand s pg a k = memReadEff s pg (pack (BitVec.ofNat 8 ((xof a).toNat + k)) (yof a))) ∧
    ((xof a).toNat + k ≤ 255 → s.cfg.operandView = .stored →
      operand s pg a k = memRead s pg (pack (BitVec.ofNat 8 ((xof a).toNat + k)) (yof a)))

/-- 40_cpu_step.md R112 with 30_encoding.md R96, R97 (decisions D3, D6): what is read at an address, by the effective opcode byte and the
operands; the operand order is the configuration's. -/
def Obligations.ReadInstructionCaseTable : Prop :=
  ∀ (s : State) (pg : PageId) (a t : Addr),
    (s.cfg.addrOperandOrder = .xy → t.toNat = (operand s pg a 1).toNat * 256 + (operand s pg a 2).toNat) →
    (s.cfg.addrOperandOrder = .yx → t.toNat = (operand s pg a 2).toNat * 256 + (operand s pg a 1).toNat) →
    (memReadEff s pg a = 0x6A → readInstruction s pg a = .jump t) ∧
    (memReadEff s pg a = 0x73 → readInstruction s pg a = .swap t) ∧
    (memReadEff s pg a = 0x63 → readInstruction s pg a = .compare (operand s pg a 1)) ∧
    (memReadEff s pg a = 0x65 → readInstruction s pg a = .jumpEqual t) ∧
    (memReadEff s pg a = 0x6C → readInstruction s pg a = .jumpLess t) ∧
    (memReadEff s pg a = 0x67 → readInstruction s pg a = .jumpGreater t) ∧
    (memReadEff s pg a = 0x61 → readInstruction s pg a = .add (operand s pg a 1)) ∧
    (memReadEff s pg a = 0x70 → readInstruction s pg a = .page (operand s pg a 1)) ∧
    (memReadEff s pg a ∉ ([0x61, 0x63, 0x65, 0x67, 0x6A, 0x6C, 0x70, 0x73] : List Byte) →
      readInstruction s pg a = .noneOp (memReadEff s pg a))

/-- 40_cpu_step.md R112: an unloaded page never yields an opcode, wherever the player stands and whatever its mask. -/
def Obligations.UnloadedPageDecodesToNone : Prop :=
  ∀ (s : State) (pg : PageId) (a : Addr), pg ∉ s.memory.ids → isNone (readInstruction s pg a) = true

/-- 10_state.md R25 (decision D5): Compare, Add and the conditional jumps read the stored register, or the effective one under the
alternative `REG_OPERAND_VIEW`. -/
def Obligations.RegisterOperandView : Prop :=
  ∀ (s : State) (r : RegId),
    (s.cfg.regOperandView = .stored → regOperand s r = s.reg r) ∧
    (s.cfg.regOperandView = .effective → regOperand s r = regEff s r)

/-! ## Dual addressing, memory, overlay -/

/-- 20_memory.md R54, R55: `a + 1` is one row down, carrying from row 255 to row 0 of the next column; `a + 0x100` is one
column right, wrapping from column 255 to column 0 of the same row; increasing linear order is column-major. -/
def Obligations.LinearNeighbours : Prop :=
  ∀ x y : Byte,
    (y ≠ 255 → pack x y + 1 = pack x (y + 1)) ∧
    pack x 255 + 1 = pack (x + 1) 0 ∧
    (y ≠ 0 → pack x y - 1 = pack x (y - 1)) ∧
    pack x 0 - 1 = pack (x - 1) 255 ∧
    pack x y + 0x100 = pack (x + 1) y ∧
    pack x y - 0x100 = pack (x - 1) y ∧
    ∀ x' y' : Byte,
      (pack x y).toNat < (pack x' y').toNat ↔ x.toNat < x'.toNat ∨ (x = x' ∧ y.toNat < y'.toNat)

/-- 20_memory.md R57, R58 (decision D29): on a page that is not loaded a read gives 0 and a write changes nothing at all. -/
def Obligations.NullPage : Prop :=
  ∀ (s : State) (pg : PageId) (a : Addr) (v : Byte), pg ∉ s.memory.ids →
    memRead s pg a = 0 ∧ memWrite s pg a v = s

/-- 21_overlay.md R80 (decision D9): the mask is the one bit `1 << PLAYER_OFFSET`; at the default offset it is 0x40. -/
def Obligations.PlayerMaskIsOneBit : Prop :=
  (∀ c : Config, (playerMask c).toNat = 2 ^ c.playerOffset.val) ∧
  (∀ c : Config, playerMask c ∈ ([0x01, 0x02, 0x04, 0x08, 0x10, 0x20, 0x40, 0x80] : List Byte)) ∧
  (∀ c : Config, c.playerOffset = 6 → playerMask c = 0x40) ∧ State.reset.cfg.playerOffset = 6

/-- 21_overlay.md R81 (decision D8): the effective value of a grid cell; on a page that is not loaded it is the mask itself where
the player stands. -/
def Obligations.EffectiveCellValue : Prop :=
  ∀ (s : State) (pg : PageId) (a : Addr),
    (s.player = .pos (xof a) (yof a) ∧ s.activePage = pg → memReadEff s pg a = memRead s pg a ||| playerMask s.cfg) ∧
    (¬(s.player = .pos (xof a) (yof a) ∧ s.activePage = pg) → memReadEff s pg a = memRead s pg a) ∧
    (pg ∉ s.memory.ids → s.player = .pos (xof a) (yof a) → s.activePage = pg → memReadEff s pg a = playerMask s.cfg) ∧
    (∀ x y, effectiveValue s pg x y = memReadEff s pg (pack x y))

/-- 21_overlay.md R82: the effective value of a register. -/
def Obligations.EffectiveRegisterValue : Prop :=
  ∀ (s : State) (r : RegId),
    (s.player = .reg r → regEff s r = s.reg r ||| playerMask s.cfg) ∧
    (s.player ≠ .reg r → regEff s r = s.reg r)

/-- 21_overlay.md R84: at most one location, cell or register, has its effective value differ from its stored value; with
the player at position P, the effective value of P is the stored one with the mask, and every other position of the page
reads as stored. -/
def Obligations.OnlyOneLocationIsOverlaid : Prop :=
  ∀ s : State,
    (∀ pg a pg' a', memReadEff s pg a ≠ memRead s pg a → memReadEff s pg' a' ≠ memRead s pg' a' → pg = pg' ∧ a = a') ∧
    (∀ r r', regEff s r ≠ s.reg r → regEff s r' ≠ s.reg r' → r = r') ∧
    (∀ r pg a, regEff s r ≠ s.reg r → memReadEff s pg a = memRead s pg a) ∧
    (∀ x y, s.player = .pos x y →
      effectiveValue s s.activePage x y = memRead s s.activePage (pack x y) ||| playerMask s.cfg ∧
      ∀ x' y', (x', y') ≠ (x, y) → effectiveValue s s.activePage x' y' = memRead s s.activePage (pack x' y'))

/-! ## Instructions: where each completes, its result and its frame -/

/-- 10_state.md R29, with R113 (decision D24): the advance saturates at 0xFFFF and otherwise adds 1, carrying from row 255 into the
next column; a jump or a trigger writes any 16-bit value. -/
def Obligations.PcAdvanceSaturates : Prop :=
  (∀ s : State, s.advancePc.pc = advanced s.pc) ∧
  (∀ (s : State) (x : Byte), x ≠ 255 → s.pc = pack x 255 → s.advancePc.pc = pack (x + 1) 0) ∧
  (∀ (s : State) (target : Addr), ∃ t, exec (.jump target) s = .next t ∧ t.pc = target) ∧
  (∀ (s : State) (target : Addr), (applyEffect (.setProgramCounter target) s).pc = target)

/-- 41_jump.md R130: Jump completes in every state; `pc` is the target and nothing else changes. -/
def Obligations.JumpResult : Prop :=
  ∀ (target : Addr) (s : State), ∃ t, exec (.jump target) s = .next t ∧
    t.pc = target ∧ SameRegs s t ∧ Untouched s t

/-- 44_cond_jump.md R145 to R147 (decision D5 for the register read): the conditional jumps complete in every state; by the Compare register, `pc` is the
target or the advanced value, and nothing else changes; exactly one of the three is taken. -/
def Obligations.ConditionalJumpResults : Prop :=
  ∀ (target : Addr) (s : State), ∃ te tl tg,
    exec (.jumpEqual target) s = .next te ∧ exec (.jumpLess target) s = .next tl ∧
    exec (.jumpGreater target) s = .next tg ∧
    te.pc = (if regOperand s .compare = 0 then target else advanced s.pc) ∧
    tl.pc = (if (regOperand s .compare).toNat > 1 then target else advanced s.pc) ∧
    tg.pc = (if regOperand s .compare = 1 then target else advanced s.pc) ∧
    SameRegs s te ∧ Untouched s te ∧ SameRegs s tl ∧ Untouched s tl ∧ SameRegs s tg ∧ Untouched s tg

/-- 43_compare.md R140 (decision D5 for the register read): Compare completes in every state; it writes 0, 1 or 0xFF by the unsigned comparison of Data with
the immediate, advances `pc`, and changes nothing else. -/
def Obligations.CompareResult : Prop :=
  ∀ (v : Byte) (s : State), ∃ t, exec (.compare v) s = .next t ∧
    (regOperand s .data = v → t.reg .compare = 0x00) ∧
    ((regOperand s .data).toNat > v.toNat → t.reg .compare = 0x01) ∧
    ((regOperand s .data).toNat < v.toNat → t.reg .compare = 0xFF) ∧
    t.pc = advanced s.pc ∧ SameRegsExcept .compare s t ∧ Untouched s t

/-- 45_add.md R150 (decision D5 for the register read): Add completes in every state; Data becomes the sum modulo 256, `pc` is advanced, and nothing else
changes. -/
def Obligations.AddResult : Prop :=
  ∀ (v : Byte) (s : State), ∃ t, exec (.add v) s = .next t ∧
    (t.reg .data).toNat = ((regOperand s .data).toNat + v.toNat) % 256 ∧
    t.pc = advanced s.pc ∧ SameRegsExcept .data s t ∧ Untouched s t

/-- 42_swap.md R135 (decisions D7, D29): Swap completes in every state; it exchanges the stored Data register with the stored byte at
`(xe[PAGE], addr16)`; on a page that is not loaded Data becomes 0 and no byte changes. Every other byte and register, and
everything but `pc` and the player's place, is unchanged. -/
def Obligations.SwapResult : Prop :=
  ∀ (target : Addr) (s : State), ∃ t, exec (.swap target) s = .next t ∧
    t.reg .data = memRead s (cpuPage s) target ∧
    (s.inv → cpuPage s ∈ s.memory.ids → memRead t (cpuPage s) target = s.reg .data) ∧
    (cpuPage s ∉ s.memory.ids → t.reg .data = 0 ∧ SameBytes s t) ∧
    SameBytesExcept (cpuPage s) target s t ∧ SameRegsExcept .data s t ∧ t.pc = advanced s.pc ∧
    t.pageInstrExecuted = s.pageInstrExecuted ∧ SameHostState s t ∧ SameConstants s t

/-- 42_swap.md R135: the player on the swapped cell goes to the Data register, the player on the Data register goes to the
swapped cell of the CPU page, and any other player stays. -/
def Obligations.SwapCarriesThePlayer : Prop :=
  ∀ (target : Addr) (s : State), ∃ t, exec (.swap target) s = .next t ∧
    (s.player = .pos (xof target) (yof target) → t.player = .reg .data ∧ t.activePage = s.activePage) ∧
    (s.player = .reg .data → t.player = .pos (xof target) (yof target) ∧ t.activePage = cpuPage s) ∧
    (s.player ≠ .pos (xof target) (yof target) → s.player ≠ .reg .data → SamePlace s t)

/-- 42_swap.md R135, corner case (b): under the gate, on a loaded page, Swap exchanges effective values too. -/
def Obligations.SwapExchangesEffectiveValues : Prop :=
  ∀ (target : Addr) (s t : State), s.inv → gate s = true → cpuPage s ∈ s.memory.ids →
    exec (.swap target) s = .next t →
    regEff t .data = memReadEff s (cpuPage s) target ∧ memReadEff t (cpuPage s) target = regEff s .data

/-- 42_swap.md R135, corner case (g): two Swaps of one address in succession restore the stored values and the player. -/
def Obligations.SwapTwiceRestores : Prop :=
  ∀ (target : Addr) (s t u : State), s.inv → gate s = true → cpuPage s ∈ s.memory.ids →
    exec (.swap target) s = .next t → exec (.swap target) t = .next u →
    SameBytes s u ∧ SameRegs s u ∧ SamePlace s u

/-- 46_page.md R155 (decision D26 for the disabled form): Page completes in every state. With page switching enabled it writes the Page register, the active
page and the flag, and advances `pc`; with it disabled only `pc` advances. Nothing else changes. -/
def Obligations.PageResult : Prop :=
  ∀ (v : Byte) (s : State), ∃ t, exec (.page v) s = .next t ∧
    (s.cfg.pageSwitchEnabled = true → t.reg .page = v ∧ t.activePage = v ∧ t.pageInstrExecuted = true) ∧
    (s.cfg.pageSwitchEnabled = false →
      SameRegs s t ∧ t.activePage = s.activePage ∧ t.pageInstrExecuted = s.pageInstrExecuted) ∧
    t.pc = advanced s.pc ∧ t.player = s.player ∧ SameRegsExcept .page s t ∧ SameBytes s t ∧
    SameHostState s t ∧ SameConstants s t

/-- 46_page.md R155, corner case (e): with the player on the Page register, a Page to an id whose mask bit is clear leaves
the gate false. -/
def Obligations.PageUnderThePlayerClosesTheGate : Prop :=
  ∀ (v : Byte) (s t : State), s.cfg.pageSwitchEnabled = true → s.player = .reg .page →
    v &&& playerMask s.cfg = 0 → exec (.page v) s = .next t →
    t.activePage = v ∧ cpuPage t = v ||| playerMask t.cfg ∧ gate t = false

/-- 47_none.md R160: None completes in every state and changes nothing; `pc` is not advanced. -/
def Obligations.NoneChangesNothing : Prop :=
  ∀ (op : Byte) (s : State), exec (.noneOp op) s = .next s

/-- 10_state.md R25, R40, 45_add.md R150 (d) (decision D5): under stored register operands, the result of every instruction but Swap does
not depend on where the player is. -/
def Obligations.ResultsIgnoreThePlayer : Prop :=
  ∀ (i : Instr) (s t : State) (p : Player), s.cfg.regOperandView = .stored → (∀ target, i ≠ .swap target) →
    exec i s = .next t → exec i { s with player := p } = .next { t with player := p }

/-! ## The step -/

/-- 40_cpu_step.md R116: `CpuStep` has a next state in every state, and so has every transition (that the transition with
no input pending has one is the model's choice, log entry 13). R114: when the gate is false `CpuStep` changes nothing.
47_none.md R160: when the fetched byte is no opcode it changes nothing. R110: under the gate it is the fetched instruction. -/
def Obligations.CpuStepIsTotal : Prop :=
  (∀ s : State, Continues (cpuStep s) ∧ Continues (step s)) ∧
  (∀ s : State, s.activePage ≠ regEff s .page → cpuStep s = .next s) ∧
  (∀ s : State, isNone (readInstruction s (regEff s .page) s.pc) = true → cpuStep s = .next s) ∧
  (∀ s : State, s.activePage = regEff s .page → cpuStep s = exec (readInstruction s (regEff s .page) s.pc) s)

/-- 55_host_interface.md R201, 40_cpu_step.md R110 (decision D17: every action gives the CPU its step): a step runs the decoded instruction. For an action, with `u` the state
after its movement and triggers and `i` the instruction that the effective opcode byte at `pc` of the CPU page and its
operands decode to, the step is `exec i u` when the gate holds in `u`, and `u` itself when it does not. -/
def Obligations.StepRunsTheDecodedInstruction : Prop :=
  ∀ (s u : State) (a : Action) (rest : List HostInput) (i : Instr),
    s.inputs = .makeMove a :: rest → u = beforeCpuStep a { s with inputs := rest } →
    decode u.cfg.addrOperandOrder (memReadEff u (cpuPage u) u.pc) (operand u (cpuPage u) u.pc 1)
      (operand u (cpuPage u) u.pc 2) = i →
    (u.activePage = cpuPage u → step s = exec i u) ∧ (u.activePage ≠ cpuPage u → step s = .next u)

/-- The steps without an action. 55_host_interface.md R223: a patch of one page changes that page's grid by `patch` and
nothing else. The model's choices: log entry 13, with no input pending nothing happens; log entry 12, the host's policy on
`visited` adds and removes single page ids. -/
def Obligations.StepsWithoutAnAction : Prop :=
  (∀ s : State, s.inputs = [] → step s = .next s) ∧
  (∀ (s : State) (pg : PageId) (rest : List HostInput), s.inputs = .visitedSet pg :: rest →
    ∃ t, step s = .next t ∧ t = { s with inputs := rest, visited := t.visited } ∧
      ∀ i, t.visited.get i = (s.visited.get i || i == pg)) ∧
  (∀ (s : State) (pg : PageId) (rest : List HostInput), s.inputs = .visitedClear pg :: rest →
    ∃ t, step s = .next t ∧ t = { s with inputs := rest, visited := t.visited } ∧
      ∀ i, t.visited.get i = (s.visited.get i && i != pg)) ∧
  (∀ (s : State) (pg : PageId) (d : List Hunk) (rest : List HostInput), s.inputs = .patch pg d :: rest →
    ∃ t, step s = .next t ∧ t = { s with inputs := rest, memory := t.memory } ∧ t.memory.ids = s.memory.ids ∧
      (∀ pg', triggerTable t pg' = triggerTable s pg') ∧
      (∀ pg', pg' ≠ pg → t.memory.page? pg' = s.memory.page? pg') ∧
      (∀ p, s.memory.page? pg = some p → t.memory.page? pg = some { p with grid := patch p.grid d }))

/-- 70_reset_and_hazards.md R273, the model's log entry 14: in the state that `withFetchWord` gives, the very next step
runs the instruction of the table word, and then the inputs pending before are pending again. -/
def Obligations.PlacedInstructionRuns : Prop :=
  ∀ (s : State) (nbits w : Nat) (i : Instr), s.inv → s.cfg.addrOperandOrder = .xy → decodeTableWord nbits w = some i →
    step (s.withFetchWord nbits w) = exec i { s.withFetchWord nbits w with inputs := s.inputs }

/-! ## Invariants and rules about the whole machine -/

/-- The model's choices, no rule of the spec: every step keeps the memory in the model's canonical form, so that equal
memories are equal data. That form is log entry 5 (DEDUCED): pages with rising ids, from the set of loaded pages of
20_memory.md R56; each grid's addresses rising and inside the grid of R51; each trigger table's positions rising, from the
one trigger per position of 60_exceptions.md R245. That a grid lists no zero is log entry 8 (DESIGN CHOICE). -/
def Obligations.StepKeepsMemoryCanonical : Prop :=
  ∀ s t : State, s.inv → step s = .next t → t.inv

/-- The model's choices, no rule of the spec: the canonical form of the memory (log entry 5, DEDUCED from 20_memory.md R51,
R56 and 60_exceptions.md R245) holds right after reset, where no page is loaded (log entry 7, DESIGN CHOICE), and after
construction from any canonical pages. -/
def Obligations.ResetMeetsTheInvariant : Prop :=
  State.reset.inv ∧ ∀ (l : LaunchArgs) (inputs : List HostInput), Memory.wf l.pages → (State.launch l inputs).inv

/-- 70_reset_and_hazards.md R270. That the two flags are false after reset, and `end_of_level` after every construction, is
the spec's own decision D12, which the model takes over (log entry 20). After construction `page_instr_executed`, `pc`, the
player, its active page, `visited`, the loaded pages, the configuration and the three stored register values are their
launch arguments. -/
def Obligations.LaunchIsItsArguments : Prop :=
  State.reset.pageInstrExecuted = false ∧ State.reset.endOfLevel = false ∧
  ∀ (l : LaunchArgs) (inputs : List HostInput),
    (State.launch l inputs).endOfLevel = false ∧ (State.launch l inputs).pageInstrExecuted = l.pageInstrExecuted ∧
    (State.launch l inputs).pc = l.pc ∧ (State.launch l inputs).player = l.player ∧
    (State.launch l inputs).activePage = l.activePage ∧ (State.launch l inputs).visited = l.visited ∧
    (State.launch l inputs).memory = l.pages ∧ (State.launch l inputs).cfg = l.cfg ∧
    (State.launch l inputs).reg .data = l.data.value ∧ (State.launch l inputs).reg .page = l.page.value ∧
    (State.launch l inputs).reg .compare = l.compare.value

/-- 10_state.md R26, R37, 20_memory.md R56: no step changes the configuration, the set of loaded pages, or a register's
`protected` flag or name. -/
def Obligations.StepKeepsConstants : Prop :=
  ∀ s t : State, step s = .next t → SameConstants s t

/-- 10_state.md R33: no step clears `page_instr_executed`, and only a Page instruction that executes with page switching
enabled sets it. -/
def Obligations.PageFlagSetOnlyByPage : Prop :=
  ∀ s t : State, step s = .next t →
    (s.pageInstrExecuted = true → t.pageInstrExecuted = true) ∧
    (s.pageInstrExecuted = false → t.pageInstrExecuted = true →
      ∃ u v, Executes s u (.page v) ∧ s.cfg.pageSwitchEnabled = true)

/-- 10_state.md R23, 55_host_interface.md R224: only a Page instruction that executes with page switching enabled changes
the Page register, and then to its immediate. -/
def Obligations.PageRegisterWrittenOnlyByPage : Prop :=
  ∀ s t : State, step s = .next t → t.reg .page ≠ s.reg .page →
    ∃ u v, Executes s u (.page v) ∧ s.cfg.pageSwitchEnabled = true ∧ t.reg .page = v

/-- 10_state.md R22, R24, 55_host_interface.md R224: only Add, Swap and the register reset of a SetProgramCounter trigger
that the step fires change Data; only Compare and such a reset change Compare. A reset leaves the configured value (decision
D20: the values are parameters). -/
def Obligations.DataAndCompareWriters : Prop :=
  ∀ s t : State, step s = .next t →
    (t.reg .data ≠ s.reg .data →
      (∃ u v, Executes s u (.add v)) ∨ (∃ u a, Executes s u (.swap a)) ∨
      (∃ target, FiresTrigger s (.setProgramCounter target) ∧ s.cfg.triggerResetsRegs = true ∧
        t.reg .data = s.cfg.triggerResetData)) ∧
    (t.reg .compare ≠ s.reg .compare →
      (∃ u v, Executes s u (.compare v)) ∨
      (∃ target, FiresTrigger s (.setProgramCounter target) ∧ s.cfg.triggerResetsRegs = true ∧
        t.reg .compare = s.cfg.triggerResetCompare))

/-- 55_host_interface.md R223, 20_memory.md R64: a stored byte changes only by a Swap of that very cell of the CPU page,
which stores the Data register there, or by a patch of its page. -/
def Obligations.StoredBytesChangeOnlyBySwapOrPatch : Prop :=
  ∀ (s t : State) (pg : PageId) (a : Addr), s.inv → step s = .next t → memRead t pg a ≠ memRead s pg a →
    (∃ d rest, s.inputs = .patch pg d :: rest) ∨
    (∃ u, Executes s u (.swap a) ∧ cpuPage u = pg ∧ memRead t pg a = u.reg .data)

/-- 10_state.md R34: no step clears `end_of_level`, and only a trigger fired by an action sets it: an EndOfLevel, or a
Message whose text is WIN. -/
def Obligations.EndOfLevelSetOnlyByTrigger : Prop :=
  ∀ s t : State, step s = .next t →
    (s.endOfLevel = true → t.endOfLevel = true) ∧
    (s.endOfLevel = false → t.endOfLevel = true →
      ∃ a rest x y trigger, s.inputs = .makeMove a :: rest ∧
        (performAction a { s with inputs := rest }).1.player = .pos x y ∧
        findTrigger (triggerTable s (performAction a { s with inputs := rest }).1.activePage) (pack x y) = some trigger ∧
        trigger.isActive = true ∧ (trigger.effect = .endOfLevel ∨ trigger.effect = .message "WIN"))

/-- 55_host_interface.md R210: the player enters the register list only through a Swap whose target is the player's cell,
becoming Reg(DATA), and leaves it only through a Swap while at Reg(DATA); no host action moves the player between the grid
and the registers. -/
def Obligations.PlayerChangesSidesOnlyBySwap : Prop :=
  (∀ (s t : State) (x y : Byte) (r : RegId), step s = .next t → s.player = .pos x y → t.player = .reg r →
    ∃ u target, Executes s u (.swap target) ∧ u.player = .pos (xof target) (yof target) ∧ r = .data) ∧
  (∀ (s t : State) (x y : Byte) (r : RegId), step s = .next t → s.player = .reg r → t.player = .pos x y →
    ∃ u target, Executes s u (.swap target) ∧ u.player = .reg .data ∧ x = xof target ∧ y = yof target) ∧
  (∀ (a : Action) (s : State),
    (∃ x y, (beforeCpuStep a s).player = .pos x y) ↔ ∃ x y, s.player = .pos x y)

/-! ## The host's actions -/

/-- 55_host_interface.md R203, Block: the candidate is `(x + dx, y + dy)` when both lie in 0 to 255, else the move is
rejected and the player stays. -/
def Obligations.BlockCandidate : Prop :=
  (∀ (d : Dir) (x y : Byte),
    (∀ cx cy : Byte, moveCandidate .block d x y = some (cx, cy) ↔
      (cx.toNat : Int) = x.toNat + d.dx ∧ (cy.toNat : Int) = y.toNat + d.dy) ∧
    (moveCandidate .block d x y = none ↔
      ¬(0 ≤ (x.toNat : Int) + d.dx ∧ (x.toNat : Int) + d.dx ≤ 255 ∧
        0 ≤ (y.toNat : Int) + d.dy ∧ (y.toNat : Int) + d.dy ≤ 255))) ∧
  (∀ (d : Dir) (x y : Byte) (s : State), s.cfg.wrapMode = .block → s.player = .pos x y →
    moveCandidate .block d x y = none → (performAction (.move d) s).1 = s) ∧
  [Dir.up, .down, .left, .right].map (fun d => (d.dx, d.dy)) = [(0, -1), (0, 1), (-1, 0), (1, 0)]

/-- 55_host_interface.md R204, WrapLine: each coordinate wraps by itself modulo 256. -/
def Obligations.WrapLineCandidate : Prop :=
  ∀ (d : Dir) (x y : Byte), ∃ cx cy : Byte, moveCandidate .wrapLine d x y = some (cx, cy) ∧
    (cx.toNat : Int) = (x.toNat + d.dx) % 256 ∧ (cy.toNat : Int) = (y.toNat + d.dy) % 256 ∧
    (d = .up → y = 0 → cx = x ∧ cy = 255) ∧ (d = .right → x = 255 → cx = 0 ∧ cy = y)

/-- 55_host_interface.md R205, WrapGrid: 1 or 0x100 is added to or subtracted from the linear address modulo 65,536; Up and
Down carry into the neighbouring column, Left and Right go as under WrapLine. -/
def Obligations.WrapGridCandidate : Prop :=
  ∀ x y : Byte,
    (∃ cx cy, moveCandidate .wrapGrid .down x y = some (cx, cy) ∧ pack cx cy = pack x y + 1 ∧
      (y = 255 → cx = x + 1 ∧ cy = 0)) ∧
    (∃ cx cy, moveCandidate .wrapGrid .up x y = some (cx, cy) ∧ pack cx cy = pack x y - 1 ∧
      (y = 0 → cx = x - 1 ∧ cy = 255)) ∧
    (∃ cx cy, moveCandidate .wrapGrid .right x y = some (cx, cy) ∧ pack cx cy = pack x y + 0x100) ∧
    (∃ cx cy, moveCandidate .wrapGrid .left x y = some (cx, cy) ∧ pack cx cy = pack x y - 0x100) ∧
    moveCandidate .wrapGrid .right x y = moveCandidate .wrapLine .right x y ∧
    moveCandidate .wrapGrid .left x y = moveCandidate .wrapLine .left x y

/-- 55_host_interface.md R206, R207: with a candidate in hand, the player moves there exactly when the candidate's stored
byte on the active page has the mask bit clear (the player is never on its own candidate); else nothing changes. On a page
that is not loaded every cell is accessible. A grid move changes nothing but the player. -/
def Obligations.GridMoveResult : Prop :=
  ∀ (s : State) (d : Dir) (x y cx cy : Byte), s.player = .pos x y →
    moveCandidate s.cfg.wrapMode d x y = some (cx, cy) →
    memReadEff s s.activePage (pack cx cy) = memRead s s.activePage (pack cx cy) ∧
    (memRead s s.activePage (pack cx cy) &&& playerMask s.cfg = 0 →
      (performAction (.move d) s).1 = { s with player := .pos cx cy }) ∧
    (memRead s s.activePage (pack cx cy) &&& playerMask s.cfg ≠ 0 → (performAction (.move d) s).1 = s) ∧
    (s.activePage ∉ s.memory.ids → (performAction (.move d) s).1 = { s with player := .pos cx cy })

/-- 55_host_interface.md R209 (decisions D2, D18): movement on the register list. Up names the register before, Down the one after; Left,
Right and the ends of the list change nothing. An accessible destination takes the player, and the active page becomes the
effective Page register as read after the move; else nothing changes. -/
def Obligations.RegisterMoveResult : Prop :=
  ∀ (s : State) (r : RegId) (d : Dir), s.player = .reg r →
    ((d = .left ∨ d = .right ∨ (d = .up ∧ r = .data) ∨ (d = .down ∧ r = .compare)) →
      (performAction (.move d) s).1 = s) ∧
    (∀ dest : RegId,
      (d = .up ∧ r = .page ∧ dest = .data) ∨ (d = .up ∧ r = .compare ∧ dest = .page) ∨
      (d = .down ∧ r = .data ∧ dest = .page) ∨ (d = .down ∧ r = .page ∧ dest = .compare) →
      regEff s dest = s.reg dest ∧
      (s.reg dest &&& playerMask s.cfg = 0 →
        (performAction (.move d) s).1 =
          { s with
            player := .reg dest
            activePage := if dest = .page then s.reg .page ||| playerMask s.cfg else s.reg .page }) ∧
      (s.reg dest &&& playerMask s.cfg ≠ 0 → (performAction (.move d) s).1 = s))

/-- 55_host_interface.md R211, R212 (decision D22): RotatePage. In the grid and allowed by the rule, the active page becomes the first
visited id among the 255 that follow it, 255 wrapping to 1, or stays when none is visited; nothing else changes. On a
register, or forbidden by the rule, nothing changes. -/
def Obligations.RotatePageFindsTheNextVisited : Prop :=
  ∀ s : State,
    let next : PageId → PageId := fun c => if c = 255 then 1 else c + 1
    let allowed := (∃ x y, s.player = .pos x y) ∧
      (s.cfg.rotateRule = .always ∨ (s.cfg.rotateRule = .afterPageInstruction ∧ s.pageInstrExecuted = true))
    (¬allowed → (performAction .rotatePage s).1 = s) ∧
    (∀ k : Nat, allowed → 1 ≤ k → k ≤ 255 → s.visited.get (next^[k] s.activePage) = true →
      (∀ j : Nat, 1 ≤ j → j < k → s.visited.get (next^[j] s.activePage) = false) →
      (performAction .rotatePage s).1 = { s with activePage := next^[k] s.activePage } ∧
        (performAction .rotatePage s).1.activePage ≠ 0) ∧
    (allowed → (∀ j : Nat, 1 ≤ j → j ≤ 255 → s.visited.get (next^[j] s.activePage) = false) →
      (performAction .rotatePage s).1 = s)

/-- 55_host_interface.md R216 (decision D20: the reset values are parameters): what a trigger's effect does, and that it does
nothing else. R216 says of a Message only that its text is emitted; that the text is appended to the list `messages` is the
model's choice of how to record it (log entry 15). -/
def Obligations.TriggerEffects : Prop :=
  (∀ (s : State) (target : Addr), s.cfg.triggerResetsRegs = true →
    ∃ t, applyEffect (.setProgramCounter target) s = t ∧ t.pc = target ∧ t.reg .data = s.cfg.triggerResetData ∧
      t.reg .compare = s.cfg.triggerResetCompare ∧ t.reg .page = s.reg .page ∧ Untouched s t) ∧
  (∀ (s : State) (target : Addr), s.cfg.triggerResetsRegs = false →
    applyEffect (.setProgramCounter target) s = { s with pc := target }) ∧
  (∀ s : State, applyEffect .endOfLevel s = { s with endOfLevel := true }) ∧
  (∀ s : State, applyEffect (.message "WIN") s = { s with messages := s.messages ++ ["WIN"], endOfLevel := true }) ∧
  (∀ (s : State) (text : String), text ≠ "WIN" →
    applyEffect (.message text) s = { s with messages := s.messages ++ [text] })

/-- 55_host_interface.md R214, R215: a trigger that fires is marked triggered, and its effect is applied to a state `u` that
differs in that mark alone: no stored byte, no page of another id and no trigger of another position has changed, in its
place in the table. A one-time trigger does not fire again, any other fires again with the same effect. -/
def Obligations.OneTimeTriggerFiresOnce : Prop :=
  ∀ (s : State) (pg : PageId) (a : Addr) (trigger : Trigger),
    findTrigger (triggerTable s pg) a = some trigger → trigger.isActive = true →
    findTrigger (triggerTable (fireAt pg a s) pg) a = some { trigger with triggered := true } ∧
    (∃ u, fireAt pg a s = applyEffect trigger.effect u ∧ u = { s with memory := u.memory } ∧ SameBytes s u ∧
      (fireAt pg a s).memory = u.memory ∧ u.memory.ids = s.memory.ids ∧
      (∀ pg', pg' ≠ pg → u.memory.page? pg' = s.memory.page? pg') ∧
      (triggerTable u pg).length = (triggerTable s pg).length ∧
      (∀ (k : Nat) (other : Trigger), (triggerTable s pg)[k]? = some other → other.position ≠ a →
        (triggerTable u pg)[k]? = some other)) ∧
    (trigger.oneTime = true → fireAt pg a (fireAt pg a s) = fireAt pg a s) ∧
    (trigger.oneTime = false → fireAt pg a (fireAt pg a s) = applyEffect trigger.effect (fireAt pg a s))

/-- 55_host_interface.md R215 (decision D19): with `TRIGGER_ON_BLOCKED_MOVE` false, phase 2 does nothing unless the action was a Move that
relocated a player in the grid; when it was, it fires what is keyed by the new cell on the active page. The clause for the
setting true is the model's choice (log entry 16, which reads it from the setting's name): after every Move of a player in
the grid, also one that was blocked or rejected, phase 2 fires what is keyed by the cell the player then stands on; after a
RotatePage and a Move on the register list it does nothing. -/
def Obligations.TriggersNeedALanding : Prop :=
  ∀ (a : Action) (s : State),
    (s.cfg.triggerOnBlockedMove = false →
      (∀ x y d cx cy, a = .move d → s.player = .pos x y → (performAction a s).1.player = .pos cx cy → (cx, cy) ≠ (x, y) →
        beforeCpuStep a s = fireAt s.activePage (pack cx cy) (performAction a s).1) ∧
      ((performAction a s).1.player = s.player ∨ a = .rotatePage ∨ (∃ r, s.player = .reg r) →
        beforeCpuStep a s = (performAction a s).1)) ∧
    (s.cfg.triggerOnBlockedMove = true →
      (∀ x y d cx cy, a = .move d → s.player = .pos x y → (performAction a s).1.player = .pos cx cy →
        beforeCpuStep a s = fireAt s.activePage (pack cx cy) (performAction a s).1) ∧
      (a = .rotatePage ∨ (∃ r, s.player = .reg r) → beforeCpuStep a s = (performAction a s).1))

/-- 55_host_interface.md R218: the set laws of Bits256. -/
def Obligations.VisitedSetLaws : Prop :=
  ∀ (b : Bits256) (i j : Byte),
    (b.set i).get j = (b.get j || j == i) ∧ (b.clear i).get j = (b.get j && j != i)

/-! ## Queries -/

/-- 55_host_interface.md R222 (decision D27): `instruction_range` answers nothing at a byte that decodes to None on the active page; else
the maximal interval of rows of the same column around `pc` that all decode to instructions. -/
def Obligations.InstructionRangeIsMaximal : Prop :=
  ∀ (s : State) (pc : Addr),
    let has : Nat → Prop := fun r => isNone (readInstruction s s.activePage (pack (xof pc) (BitVec.ofNat 8 r))) = false
    (isNone (readInstruction s s.activePage pc) = true → instructionRange s pc = none) ∧
    (isNone (readInstruction s s.activePage pc) = false →
      ∃ lo hi : Nat, instructionRange s pc = some (lo, hi) ∧ lo ≤ (yof pc).toNat ∧ (yof pc).toNat ≤ hi ∧ hi ≤ 255 ∧
        (∀ r, lo ≤ r → r ≤ hi → has r) ∧ (lo = 0 ∨ ¬has (lo - 1)) ∧ (hi = 255 ∨ ¬has (hi + 1)))

/-! ## The codec -/

/-- 50_diff_codec.md R184, at every value of `DIFF_MERGE_GAP`, which the configuration holds: (a) patching the difference of two grids onto the first gives the second;
(b) identical grids have no hunk; (c) the same through the byte stream. -/
def Obligations.DiffRoundTrip : Prop :=
  ∀ (c : Config) (A B : Grid), Grid.wf A → Grid.wf B →
    patch A (diff c A B) = B ∧
    diff c A A = [] ∧
    ∃ stream d, serialize (diff c A B) = .ok stream ∧ deserialize stream = .ok d ∧ patch A d = B

/-- 50_diff_codec.md R174 (decision D13 for the reading of the gap): the shape of a difference. Hunks lie in strictly increasing order with at least
`DIFF_MERGE_GAP + 1` addresses between them, start and end at differing addresses, hold the bytes of `after`, stay inside the grid, and every differing
address is inside exactly one. -/
def Obligations.DiffShape : Prop :=
  ∀ (c : Config) (before after : Grid),
    List.Pairwise (fun h k : Hunk => h.start.toNat < k.start.toNat ∧ h.stop + c.diffMergeGap + 1 ≤ k.start.toNat)
      (diff c before after) ∧
    (∀ h ∈ diff c before after,
      h.bytes ≠ [] ∧ h.stop ≤ 65536 ∧ before.read h.start.toNat ≠ after.read h.start.toNat ∧
      before.read (h.stop - 1) ≠ after.read (h.stop - 1) ∧
      ∀ i, i < h.bytes.length → h.bytes[i]? = some (after.read (h.start.toNat + i))) ∧
    (∀ a, a < 65536 → before.read a ≠ after.read a →
      ∃ h ∈ diff c before after, (h.start.toNat ≤ a ∧ a < h.stop) ∧
        ∀ k ∈ diff c before after, k.start.toNat ≤ a → a < k.stop → k = h)

/-- 50_diff_codec.md R175, R176: after a hunk is applied, an address inside it reads the hunk's byte, every other address
as before; bytes past 65,535 are dropped and do not wrap; hunks apply in order. -/
def Obligations.PatchWritesItsHunks : Prop :=
  (∀ (g : Grid) (h : Hunk) (a : Nat), Grid.wf g → a < 65536 →
    (h.start.toNat ≤ a → a < h.stop → h.bytes[a - h.start.toNat]? = some ((patch g [h]).read a)) ∧
    ((a < h.start.toNat ∨ h.stop ≤ a) → (patch g [h]).read a = g.read a)) ∧
  (∀ (g : Grid) (h : Hunk), Grid.wf g → Grid.wf (patch g [h])) ∧
  (∀ (g : Grid) (d e : List Hunk), patch g (d ++ e) = patch (patch g d) e) ∧
  (∀ g : Grid, patch g [] = g)

/-- 50_diff_codec.md R183, R180 (decisions D14, D15, D16): a diff within the serializer's precondition goes through the byte stream and back, and
patches every grid as before; a diff outside it is refused. -/
def Obligations.StreamPatchesIdentically : Prop :=
  ∀ d : List Hunk,
    ((∀ h ∈ d, h.stop ≤ 65536) →
      ∃ stream e, serialize d = .ok stream ∧ deserialize stream = .ok e ∧ ∀ g : Grid, patch g e = patch g d) ∧
    ((∃ h ∈ d, 65536 < h.stop) → serialize d = .error .hunkPastEnd)

/-- 50_diff_codec.md R177, R178, R181, R182 (decision D15): `deserialize` answers a diff exactly when the stream is a sequence of whole
records, each with its start address low byte first, its length minus 1 and 1 to 256 payload bytes; then the diff has one
hunk per record. Any other stream is a FormatError. -/
def Obligations.DeserializeReadsWholeRecords : Prop :=
  ∀ (b : List Byte),
    (∀ d : List Hunk, deserialize b = .ok d ↔
      (∀ h ∈ d, 1 ≤ h.bytes.length ∧ h.bytes.length ≤ 256) ∧
      b = d.flatMap fun h =>
        [BitVec.ofNat 8 h.start.toNat, BitVec.ofNat 8 (h.start.toNat / 256), BitVec.ofNat 8 (h.bytes.length - 1)] ++
          h.bytes) ∧
    ((∀ d, deserialize b ≠ .ok d) ↔ deserialize b = .error .formatError)

/-- 50_diff_codec.md R182 (decision D15): 1, 2 or 3 bytes left after whole records are a FormatError. -/
def Obligations.LeftoverBytesAreAFormatError : Prop :=
  ∀ (b x : List Byte) (d : List Hunk), deserialize b = .ok d → 1 ≤ x.length → x.length ≤ 3 →
    deserialize (b ++ x) = .error .formatError

/-- 50_diff_codec.md R185, first sentence (decision D14): the length of the stream. -/
def Obligations.StreamLength : Prop :=
  ∀ (d : List Hunk) (stream : List Byte), serialize d = .ok stream →
    stream.length = (d.map fun h => h.bytes.length + 3 * ((h.bytes.length + 255) / 256)).sum
end

