-- ==== Sys2Proof/Laws/State.lean ====
section
/-! SUPPORT. One lemma per field per update of the state, so that no proof unfolds a record update. -/

namespace Sys2Proof.Machine

/-! `setPc` changes `pc` alone. -/

@[simp] theorem setPc_regs (s : State) (t : Addr) : (s.setPc t).regs = s.regs := rfl
@[simp] theorem setPc_player (s : State) (t : Addr) : (s.setPc t).player = s.player := rfl
@[simp] theorem setPc_activePage (s : State) (t : Addr) : (s.setPc t).activePage = s.activePage := rfl
@[simp] theorem setPc_pageInstrExecuted (s : State) (t : Addr) : (s.setPc t).pageInstrExecuted = s.pageInstrExecuted := rfl
@[simp] theorem setPc_endOfLevel (s : State) (t : Addr) : (s.setPc t).endOfLevel = s.endOfLevel := rfl
@[simp] theorem setPc_visited (s : State) (t : Addr) : (s.setPc t).visited = s.visited := rfl
@[simp] theorem setPc_memory (s : State) (t : Addr) : (s.setPc t).memory = s.memory := rfl
@[simp] theorem setPc_cfg (s : State) (t : Addr) : (s.setPc t).cfg = s.cfg := rfl
@[simp] theorem setPc_messages (s : State) (t : Addr) : (s.setPc t).messages = s.messages := rfl
@[simp] theorem setPc_inputs (s : State) (t : Addr) : (s.setPc t).inputs = s.inputs := rfl

@[simp] theorem setPc_pc (s : State) (t : Addr) : (s.setPc t).pc = t := rfl
@[simp] theorem setPc_reg (s : State) (t : Addr) (r : RegId) : (s.setPc t).reg r = s.reg r := by cases r <;> rfl

/-! `advancePc` changes `pc` alone. -/

@[simp] theorem advancePc_regs (s : State) : (s.advancePc).regs = s.regs := rfl
@[simp] theorem advancePc_player (s : State) : (s.advancePc).player = s.player := rfl
@[simp] theorem advancePc_activePage (s : State) : (s.advancePc).activePage = s.activePage := rfl
@[simp] theorem advancePc_pageInstrExecuted (s : State) : (s.advancePc).pageInstrExecuted = s.pageInstrExecuted := rfl
@[simp] theorem advancePc_endOfLevel (s : State) : (s.advancePc).endOfLevel = s.endOfLevel := rfl
@[simp] theorem advancePc_visited (s : State) : (s.advancePc).visited = s.visited := rfl
@[simp] theorem advancePc_memory (s : State) : (s.advancePc).memory = s.memory := rfl
@[simp] theorem advancePc_cfg (s : State) : (s.advancePc).cfg = s.cfg := rfl
@[simp] theorem advancePc_messages (s : State) : (s.advancePc).messages = s.messages := rfl
@[simp] theorem advancePc_inputs (s : State) : (s.advancePc).inputs = s.inputs := rfl

@[simp] theorem advancePc_pc (s : State) : s.advancePc.pc = sat16 (s.pc.toNat + 1) := rfl
@[simp] theorem advancePc_reg (s : State) (r : RegId) : s.advancePc.reg r = s.reg r := by cases r <;> rfl

/-! `setReg` changes one register's value alone. -/

@[simp] theorem setReg_pc (s : State) (r : RegId) (v : Byte) : (s.setReg r v).pc = s.pc := by cases r <;> rfl
@[simp] theorem setReg_player (s : State) (r : RegId) (v : Byte) : (s.setReg r v).player = s.player := by cases r <;> rfl
@[simp] theorem setReg_activePage (s : State) (r : RegId) (v : Byte) : (s.setReg r v).activePage = s.activePage := by cases r <;> rfl
@[simp] theorem setReg_pageInstrExecuted (s : State) (r : RegId) (v : Byte) : (s.setReg r v).pageInstrExecuted = s.pageInstrExecuted := by cases r <;> rfl
@[simp] theorem setReg_endOfLevel (s : State) (r : RegId) (v : Byte) : (s.setReg r v).endOfLevel = s.endOfLevel := by cases r <;> rfl
@[simp] theorem setReg_visited (s : State) (r : RegId) (v : Byte) : (s.setReg r v).visited = s.visited := by cases r <;> rfl
@[simp] theorem setReg_memory (s : State) (r : RegId) (v : Byte) : (s.setReg r v).memory = s.memory := by cases r <;> rfl
@[simp] theorem setReg_cfg (s : State) (r : RegId) (v : Byte) : (s.setReg r v).cfg = s.cfg := by cases r <;> rfl
@[simp] theorem setReg_messages (s : State) (r : RegId) (v : Byte) : (s.setReg r v).messages = s.messages := by cases r <;> rfl
@[simp] theorem setReg_inputs (s : State) (r : RegId) (v : Byte) : (s.setReg r v).inputs = s.inputs := by cases r <;> rfl

@[simp] theorem setReg_reg_same (s : State) (r : RegId) (v : Byte) : (s.setReg r v).reg r = v := by cases r <;> rfl
theorem setReg_reg_other (s : State) {r r' : RegId} (v : Byte) (h : r' ≠ r) : (s.setReg r v).reg r' = s.reg r' := by
  cases r <;> cases r' <;> first | rfl | exact absurd rfl h
@[simp] theorem setReg_data_page (s : State) (v : Byte) : (s.setReg .data v).reg .page = s.reg .page := rfl
@[simp] theorem setReg_data_compare (s : State) (v : Byte) : (s.setReg .data v).reg .compare = s.reg .compare := rfl
@[simp] theorem setReg_page_data (s : State) (v : Byte) : (s.setReg .page v).reg .data = s.reg .data := rfl
@[simp] theorem setReg_page_compare (s : State) (v : Byte) : (s.setReg .page v).reg .compare = s.reg .compare := rfl
@[simp] theorem setReg_compare_data (s : State) (v : Byte) : (s.setReg .compare v).reg .data = s.reg .data := rfl
@[simp] theorem setReg_compare_page (s : State) (v : Byte) : (s.setReg .compare v).reg .page = s.reg .page := rfl
/-- The inert fields of every register record stay (10_state.md R26). -/
theorem setReg_inert (s : State) (r : RegId) (v : Byte) :
    (s.setReg r v).regs.data.isProtected = s.regs.data.isProtected ∧
    (s.setReg r v).regs.data.name = s.regs.data.name ∧
    (s.setReg r v).regs.page.isProtected = s.regs.page.isProtected ∧
    (s.setReg r v).regs.page.name = s.regs.page.name ∧
    (s.setReg r v).regs.compare.isProtected = s.regs.compare.isProtected ∧
    (s.setReg r v).regs.compare.name = s.regs.compare.name := by
  cases r <;> exact ⟨rfl, rfl, rfl, rfl, rfl, rfl⟩

/-! `memWrite` changes the memory alone. -/

@[simp] theorem memWrite_regs (s : State) (pg : PageId) (a : Addr) (v : Byte) : (memWrite s pg a v).regs = s.regs := rfl
@[simp] theorem memWrite_pc (s : State) (pg : PageId) (a : Addr) (v : Byte) : (memWrite s pg a v).pc = s.pc := rfl
@[simp] theorem memWrite_player (s : State) (pg : PageId) (a : Addr) (v : Byte) : (memWrite s pg a v).player = s.player := rfl
@[simp] theorem memWrite_activePage (s : State) (pg : PageId) (a : Addr) (v : Byte) : (memWrite s pg a v).activePage = s.activePage := rfl
@[simp] theorem memWrite_pageInstrExecuted (s : State) (pg : PageId) (a : Addr) (v : Byte) : (memWrite s pg a v).pageInstrExecuted = s.pageInstrExecuted := rfl
@[simp] theorem memWrite_endOfLevel (s : State) (pg : PageId) (a : Addr) (v : Byte) : (memWrite s pg a v).endOfLevel = s.endOfLevel := rfl
@[simp] theorem memWrite_visited (s : State) (pg : PageId) (a : Addr) (v : Byte) : (memWrite s pg a v).visited = s.visited := rfl
@[simp] theorem memWrite_cfg (s : State) (pg : PageId) (a : Addr) (v : Byte) : (memWrite s pg a v).cfg = s.cfg := rfl
@[simp] theorem memWrite_messages (s : State) (pg : PageId) (a : Addr) (v : Byte) : (memWrite s pg a v).messages = s.messages := rfl
@[simp] theorem memWrite_inputs (s : State) (pg : PageId) (a : Addr) (v : Byte) : (memWrite s pg a v).inputs = s.inputs := rfl

@[simp] theorem memWrite_reg (s : State) (pg : PageId) (a : Addr) (v : Byte) (r : RegId) :
    (memWrite s pg a v).reg r = s.reg r := by cases r <;> rfl

/-! `patchPage` changes the memory alone. -/

@[simp] theorem patchPage_regs (s : State) (pg : PageId) (d : List Hunk) : (patchPage s pg d).regs = s.regs := rfl
@[simp] theorem patchPage_pc (s : State) (pg : PageId) (d : List Hunk) : (patchPage s pg d).pc = s.pc := rfl
@[simp] theorem patchPage_player (s : State) (pg : PageId) (d : List Hunk) : (patchPage s pg d).player = s.player := rfl
@[simp] theorem patchPage_activePage (s : State) (pg : PageId) (d : List Hunk) : (patchPage s pg d).activePage = s.activePage := rfl
@[simp] theorem patchPage_pageInstrExecuted (s : State) (pg : PageId) (d : List Hunk) : (patchPage s pg d).pageInstrExecuted = s.pageInstrExecuted := rfl
@[simp] theorem patchPage_endOfLevel (s : State) (pg : PageId) (d : List Hunk) : (patchPage s pg d).endOfLevel = s.endOfLevel := rfl
@[simp] theorem patchPage_visited (s : State) (pg : PageId) (d : List Hunk) : (patchPage s pg d).visited = s.visited := rfl
@[simp] theorem patchPage_cfg (s : State) (pg : PageId) (d : List Hunk) : (patchPage s pg d).cfg = s.cfg := rfl
@[simp] theorem patchPage_messages (s : State) (pg : PageId) (d : List Hunk) : (patchPage s pg d).messages = s.messages := rfl
@[simp] theorem patchPage_inputs (s : State) (pg : PageId) (d : List Hunk) : (patchPage s pg d).inputs = s.inputs := rfl

@[simp] theorem patchPage_reg (s : State) (pg : PageId) (d : List Hunk) (r : RegId) :
    (patchPage s pg d).reg r = s.reg r := by cases r <;> rfl

/-! `switchPage` changes the Page register, the active page and the flag. -/

@[simp] theorem switchPage_pc (v : PageId) (s : State) : (switchPage v s).pc = s.pc := rfl
@[simp] theorem switchPage_player (v : PageId) (s : State) : (switchPage v s).player = s.player := rfl
@[simp] theorem switchPage_endOfLevel (v : PageId) (s : State) : (switchPage v s).endOfLevel = s.endOfLevel := rfl
@[simp] theorem switchPage_visited (v : PageId) (s : State) : (switchPage v s).visited = s.visited := rfl
@[simp] theorem switchPage_memory (v : PageId) (s : State) : (switchPage v s).memory = s.memory := rfl
@[simp] theorem switchPage_cfg (v : PageId) (s : State) : (switchPage v s).cfg = s.cfg := rfl
@[simp] theorem switchPage_messages (v : PageId) (s : State) : (switchPage v s).messages = s.messages := rfl
@[simp] theorem switchPage_inputs (v : PageId) (s : State) : (switchPage v s).inputs = s.inputs := rfl

@[simp] theorem switchPage_activePage (v : PageId) (s : State) : (switchPage v s).activePage = v := rfl
@[simp] theorem switchPage_pageInstrExecuted (v : PageId) (s : State) : (switchPage v s).pageInstrExecuted = true := rfl
@[simp] theorem switchPage_reg_page (v : PageId) (s : State) : (switchPage v s).reg .page = v := rfl
@[simp] theorem switchPage_reg_data (v : PageId) (s : State) : (switchPage v s).reg .data = s.reg .data := rfl
@[simp] theorem switchPage_reg_compare (v : PageId) (s : State) : (switchPage v s).reg .compare = s.reg .compare := rfl

/-! `carryPlayer` changes the player and the active page. -/

@[simp] theorem carryPlayer_regs (pg : PageId) (a : Addr) (s : State) : (carryPlayer pg a s).regs = s.regs := by unfold carryPlayer; split <;> [rfl; (split <;> rfl)]
@[simp] theorem carryPlayer_pc (pg : PageId) (a : Addr) (s : State) : (carryPlayer pg a s).pc = s.pc := by unfold carryPlayer; split <;> [rfl; (split <;> rfl)]
@[simp] theorem carryPlayer_pageInstrExecuted (pg : PageId) (a : Addr) (s : State) : (carryPlayer pg a s).pageInstrExecuted = s.pageInstrExecuted := by unfold carryPlayer; split <;> [rfl; (split <;> rfl)]
@[simp] theorem carryPlayer_endOfLevel (pg : PageId) (a : Addr) (s : State) : (carryPlayer pg a s).endOfLevel = s.endOfLevel := by unfold carryPlayer; split <;> [rfl; (split <;> rfl)]
@[simp] theorem carryPlayer_visited (pg : PageId) (a : Addr) (s : State) : (carryPlayer pg a s).visited = s.visited := by unfold carryPlayer; split <;> [rfl; (split <;> rfl)]
@[simp] theorem carryPlayer_memory (pg : PageId) (a : Addr) (s : State) : (carryPlayer pg a s).memory = s.memory := by unfold carryPlayer; split <;> [rfl; (split <;> rfl)]
@[simp] theorem carryPlayer_cfg (pg : PageId) (a : Addr) (s : State) : (carryPlayer pg a s).cfg = s.cfg := by unfold carryPlayer; split <;> [rfl; (split <;> rfl)]
@[simp] theorem carryPlayer_messages (pg : PageId) (a : Addr) (s : State) : (carryPlayer pg a s).messages = s.messages := by unfold carryPlayer; split <;> [rfl; (split <;> rfl)]
@[simp] theorem carryPlayer_inputs (pg : PageId) (a : Addr) (s : State) : (carryPlayer pg a s).inputs = s.inputs := by unfold carryPlayer; split <;> [rfl; (split <;> rfl)]

@[simp] theorem carryPlayer_reg (pg : PageId) (a : Addr) (s : State) (r : RegId) :
    (carryPlayer pg a s).reg r = s.reg r := by cases r <;> simp [State.reg]

/-! `jumpIf` changes `pc` alone. -/

@[simp] theorem jumpIf_regs (b : Bool) (t : Addr) (s : State) : (jumpIf b t s).regs = s.regs := by cases b <;> rfl
@[simp] theorem jumpIf_player (b : Bool) (t : Addr) (s : State) : (jumpIf b t s).player = s.player := by cases b <;> rfl
@[simp] theorem jumpIf_activePage (b : Bool) (t : Addr) (s : State) : (jumpIf b t s).activePage = s.activePage := by cases b <;> rfl
@[simp] theorem jumpIf_pageInstrExecuted (b : Bool) (t : Addr) (s : State) : (jumpIf b t s).pageInstrExecuted = s.pageInstrExecuted := by cases b <;> rfl
@[simp] theorem jumpIf_endOfLevel (b : Bool) (t : Addr) (s : State) : (jumpIf b t s).endOfLevel = s.endOfLevel := by cases b <;> rfl
@[simp] theorem jumpIf_visited (b : Bool) (t : Addr) (s : State) : (jumpIf b t s).visited = s.visited := by cases b <;> rfl
@[simp] theorem jumpIf_memory (b : Bool) (t : Addr) (s : State) : (jumpIf b t s).memory = s.memory := by cases b <;> rfl
@[simp] theorem jumpIf_cfg (b : Bool) (t : Addr) (s : State) : (jumpIf b t s).cfg = s.cfg := by cases b <;> rfl
@[simp] theorem jumpIf_messages (b : Bool) (t : Addr) (s : State) : (jumpIf b t s).messages = s.messages := by cases b <;> rfl
@[simp] theorem jumpIf_inputs (b : Bool) (t : Addr) (s : State) : (jumpIf b t s).inputs = s.inputs := by cases b <;> rfl

@[simp] theorem jumpIf_reg (b : Bool) (t : Addr) (s : State) (r : RegId) : (jumpIf b t s).reg r = s.reg r := by
  cases r <;> simp [State.reg]

@[simp] theorem jumpIf_pc (b : Bool) (t : Addr) (s : State) :
    (jumpIf b t s).pc = if b then t else sat16 (s.pc.toNat + 1) := by cases b <;> rfl

/-! `redirect` changes `pc` and, by the rule, Data and Compare. -/

@[simp] theorem redirect_player (t : Addr) (s : State) : (redirect t s).player = s.player := by unfold redirect; split <;> rfl
@[simp] theorem redirect_activePage (t : Addr) (s : State) : (redirect t s).activePage = s.activePage := by unfold redirect; split <;> rfl
@[simp] theorem redirect_pageInstrExecuted (t : Addr) (s : State) : (redirect t s).pageInstrExecuted = s.pageInstrExecuted := by unfold redirect; split <;> rfl
@[simp] theorem redirect_endOfLevel (t : Addr) (s : State) : (redirect t s).endOfLevel = s.endOfLevel := by unfold redirect; split <;> rfl
@[simp] theorem redirect_visited (t : Addr) (s : State) : (redirect t s).visited = s.visited := by unfold redirect; split <;> rfl
@[simp] theorem redirect_memory (t : Addr) (s : State) : (redirect t s).memory = s.memory := by unfold redirect; split <;> rfl
@[simp] theorem redirect_cfg (t : Addr) (s : State) : (redirect t s).cfg = s.cfg := by unfold redirect; split <;> rfl
@[simp] theorem redirect_messages (t : Addr) (s : State) : (redirect t s).messages = s.messages := by unfold redirect; split <;> rfl
@[simp] theorem redirect_inputs (t : Addr) (s : State) : (redirect t s).inputs = s.inputs := by unfold redirect; split <;> rfl

@[simp] theorem redirect_pc (t : Addr) (s : State) : (redirect t s).pc = t := by unfold redirect; split <;> rfl
@[simp] theorem redirect_reg_page (t : Addr) (s : State) : (redirect t s).reg .page = s.reg .page := by
  unfold redirect; split <;> rfl

/-! `applyEffect` changes `pc`, Data and Compare, the end flag and the messages at most. -/

@[simp] theorem applyEffect_player (e : Effect) (s : State) : (applyEffect e s).player = s.player := by
  cases e <;> simp [applyEffect]
@[simp] theorem applyEffect_activePage (e : Effect) (s : State) : (applyEffect e s).activePage = s.activePage := by
  cases e <;> simp [applyEffect]
@[simp] theorem applyEffect_pageInstrExecuted (e : Effect) (s : State) : (applyEffect e s).pageInstrExecuted = s.pageInstrExecuted := by
  cases e <;> simp [applyEffect]
@[simp] theorem applyEffect_visited (e : Effect) (s : State) : (applyEffect e s).visited = s.visited := by
  cases e <;> simp [applyEffect]
@[simp] theorem applyEffect_memory (e : Effect) (s : State) : (applyEffect e s).memory = s.memory := by
  cases e <;> simp [applyEffect]
@[simp] theorem applyEffect_cfg (e : Effect) (s : State) : (applyEffect e s).cfg = s.cfg := by
  cases e <;> simp [applyEffect]
@[simp] theorem applyEffect_inputs (e : Effect) (s : State) : (applyEffect e s).inputs = s.inputs := by
  cases e <;> simp [applyEffect]

@[simp] theorem applyEffect_reg_page (e : Effect) (s : State) : (applyEffect e s).reg .page = s.reg .page := by
  cases e with
  | setProgramCounter t => exact redirect_reg_page t s
  | endOfLevel => rfl
  | message t => rfl

end Sys2Proof.Machine
end

