-- ==== Sys2Proof/Laws/Memory.lean ====
section
/-! SUPPORT. The laws of the stored bytes: read after write, and the canonical form is kept by every operation. -/

namespace Sys2Proof.Machine

/-! Addresses (20_memory.md R53). -/

theorem xof_pack (x y : Byte) : xof (pack x y) = x := by
  apply BitVec.eq_of_toNat_eq
  have hx := x.isLt
  have hy := y.isLt
  simp only [xof, pack, BitVec.toNat_ofNat]
  omega

theorem yof_pack (x y : Byte) : yof (pack x y) = y := by
  apply BitVec.eq_of_toNat_eq
  have hx := x.isLt
  have hy := y.isLt
  simp only [yof, pack, BitVec.toNat_ofNat]
  omega

theorem pack_xof_yof (a : Addr) : pack (xof a) (yof a) = a := by
  apply BitVec.eq_of_toNat_eq
  have ha := a.isLt
  simp only [xof, yof, pack, BitVec.toNat_ofNat]
  omega

theorem addr_ne_toNat {a b : Addr} (h : a ≠ b) : a.toNat ≠ b.toNat := fun e => h (BitVec.eq_of_toNat_eq e)

/-! One grid. -/

theorem Grid.read_write_other (g : Grid) {a b : Nat} (v : Byte) (h : b ≠ a) : (g.write a v).read b = g.read b := by
  induction g with
  | nil => simp only [Grid.write]; split <;> simp [Grid.read, Ne.symm h]
  | cons c g ih =>
    obtain ⟨k, w⟩ := c
    simp only [Grid.write]
    split_ifs with h1 h2 h3 h4
    · rfl
    · simp [Grid.read, Ne.symm h]
    · subst h3; simp [Grid.read, Ne.symm h]
    · subst h3; simp [Grid.read, Ne.symm h]
    · simp only [Grid.read, ih]

theorem Grid.read_of_below {g : Grid} {a : Nat} (h : ∀ c ∈ g, a < c.1) : g.read a = unlistedByte := by
  induction g with
  | nil => rfl
  | cons c g ih =>
    have hc := h c (List.mem_cons_self ..)
    simp only [Grid.read]
    rw [if_neg (by omega), ih fun d hd => h d (List.mem_cons_of_mem _ hd)]

theorem Grid.wf_tail {c : Host.Cell} {g : Grid} (h : Grid.wf (c :: g)) : Grid.wf g :=
  ⟨(List.pairwise_cons.1 h.1).2, fun d hd => h.2 d (List.mem_cons_of_mem _ hd)⟩

theorem Grid.read_write_same {g : Grid} (a : Nat) (v : Byte) (h : Grid.wf g) : (g.write a v).read a = v := by
  induction g with
  | nil => simp only [Grid.write]; split <;> simp_all [Grid.read]
  | cons c g ih =>
    have ht := Grid.wf_tail h
    have hp := (List.pairwise_cons.1 h.1).1
    obtain ⟨k, w⟩ := c
    simp only [Grid.write]
    split_ifs with h1 h2 h3 h4
    · subst h2
      simp only [Grid.read]
      rw [if_neg (by omega)]
      exact Grid.read_of_below fun d hd => lt_trans h1 (hp d hd)
    · simp [Grid.read]
    · subst h3; subst h4
      exact Grid.read_of_below hp
    · simp [Grid.read]
    · simp only [Grid.read]
      rw [if_neg (by omega), ih ht]

theorem Grid.write_mem {g : Grid} {a : Nat} {v : Byte} {c : Host.Cell} (h : c ∈ g.write a v) :
    c ∈ g ∨ (c = (a, v) ∧ v ≠ unlistedByte) := by
  induction g with
  | nil =>
    simp only [Grid.write] at h
    split at h
    · simp at h
    · rename_i hv; exact Or.inr ⟨by simpa using h, hv⟩
  | cons d g ih =>
    obtain ⟨k, w⟩ := d
    simp only [Grid.write] at h
    split_ifs at h with h1 h2 h3 h4
    · exact Or.inl h
    · rcases List.mem_cons.1 h with h | h
      · exact Or.inr ⟨h, h2⟩
      · exact Or.inl h
    · exact Or.inl (List.mem_cons_of_mem _ h)
    · rcases List.mem_cons.1 h with h | h
      · exact Or.inr ⟨h, h4⟩
      · exact Or.inl (List.mem_cons_of_mem _ h)
    · rcases List.mem_cons.1 h with h | h
      · exact Or.inl (h ▸ List.mem_cons_self ..)
      · exact (ih h).imp (List.mem_cons_of_mem _) id

/-- A write inside the grid keeps the canonical form. -/
theorem Grid.wf_write {g : Grid} {a : Nat} (v : Byte) (ha : a < 65536) (h : Grid.wf g) : Grid.wf (g.write a v) := by
  refine ⟨?_, fun c hc => ?_⟩
  · induction g with
    | nil => simp only [Grid.write]; split <;> simp
    | cons d g ih =>
      have ht := Grid.wf_tail h
      have hp := (List.pairwise_cons.1 h.1).1
      obtain ⟨k, w⟩ := d
      simp only [Grid.write]
      split_ifs with h1 h2 h3 h4
      · exact h.1
      · refine List.pairwise_cons.2 ⟨fun c hc => ?_, h.1⟩
        rcases List.mem_cons.1 hc with hc | hc
        · subst hc; exact h1
        · exact lt_trans h1 (hp c hc)
      · exact ht.1
      · subst h3; exact List.pairwise_cons.2 ⟨hp, ht.1⟩
      · refine List.pairwise_cons.2 ⟨fun c hc => ?_, ih ht⟩
        rcases Grid.write_mem hc with hc | ⟨hc, -⟩
        · exact hp c hc
        · subst hc; show k < a; omega
  · rcases Grid.write_mem hc with hc | ⟨hc, hv⟩
    · exact h.2 c hc
    · subst hc; exact ⟨ha, hv⟩

/-- Two canonical grids that read the same everywhere are equal data (20_memory.md R51). -/
theorem Grid.ext_of_read {g k : Grid} (hg : Grid.wf g) (hk : Grid.wf k) (h : ∀ a < 65536, g.read a = k.read a) : g = k := by
  induction g generalizing k with
  | nil =>
    cases k with
    | nil => rfl
    | cons d k =>
      have hd := hk.2 d (List.mem_cons_self ..)
      have := h d.1 hd.1
      simp [Grid.read] at this
      exact absurd this.symm hd.2
  | cons c g ih =>
    have hc := hg.2 c (List.mem_cons_self ..)
    have hgp := (List.pairwise_cons.1 hg.1).1
    cases k with
    | nil =>
      have := h c.1 hc.1
      simp [Grid.read] at this
      exact absurd this hc.2
    | cons d k =>
      have hd := hk.2 d (List.mem_cons_self ..)
      have hkp := (List.pairwise_cons.1 hk.1).1
      obtain ⟨a, v⟩ := c
      obtain ⟨b, w⟩ := d
      have hab : a = b := by
        rcases Nat.lt_trichotomy a b with hlt | heq | hlt
        · have := h a hc.1
          simp only [Grid.read, if_true] at this
          rw [if_neg (by omega), Grid.read_of_below fun e he => lt_trans hlt (hkp e he)] at this
          exact absurd this hc.2
        · exact heq
        · have := h b hd.1
          simp only [Grid.read, if_true] at this
          rw [if_neg (by omega), Grid.read_of_below fun e he => lt_trans hlt (hgp e he)] at this
          exact absurd this.symm hd.2
      subst hab
      have hvw : v = w := by simpa [Grid.read] using h a hc.1
      subst hvw
      congr 1
      refine ih (Grid.wf_tail hg) (Grid.wf_tail hk) fun e he => ?_
      by_cases hea : a = e
      · subst hea
        rw [Grid.read_of_below hgp, Grid.read_of_below hkp]
      · have := h e he
        simpa [Grid.read, hea] using this

/-! The page table. -/

theorem Memory.page?_modify (m : Memory) (pg pg' : PageId) (f : Page → Page) (hf : ∀ p, (f p).id = p.id) :
    (Memory.modify m pg f).page? pg' = if pg' = pg then (m.page? pg').map f else m.page? pg' := by
  induction m with
  | nil => simp [Memory.modify, Memory.page?]
  | cons p m ih =>
    simp only [Memory.modify, List.map_cons, Memory.page?] at ih ⊢
    by_cases h1 : p.id = pg
    · by_cases h2 : p.id = pg'
      · have h3 : pg' = pg := h2.symm.trans h1
        simp only [if_pos h1, hf, if_pos h2, if_pos h3, Option.map_some]
      · have h3 : ¬(pg' = pg) := fun e => h2 (h1.trans e.symm)
        simp only [if_pos h1, hf, if_neg h2, if_neg h3] at ih ⊢
        exact ih
    · by_cases h2 : p.id = pg'
      · have h3 : ¬(pg' = pg) := fun e => h1 (h2.trans e)
        simp [h2, h3]
      · simp only [if_neg h1, if_neg h2]
        exact ih

theorem Memory.page?_mem {m : Memory} {pg : PageId} {p : Page} (h : m.page? pg = some p) : p ∈ m ∧ p.id = pg := by
  induction m with
  | nil => simp [Memory.page?] at h
  | cons q m ih =>
    simp only [Memory.page?] at h
    split at h
    · rename_i hq
      cases h
      exact ⟨List.mem_cons_self .., hq⟩
    · exact (ih h).imp (List.mem_cons_of_mem _) id

@[simp] theorem Memory.ids_modify (m : Memory) (pg : PageId) (f : Page → Page) (hf : ∀ p, (f p).id = p.id) :
    (Memory.modify m pg f).ids = m.ids := by
  simp only [Memory.ids, Memory.modify, List.map_map]
  refine List.map_congr_left fun p _ => ?_
  simp only [Function.comp]
  split <;> simp [hf]

/-- A change of pages that keeps ids and keeps each page canonical keeps the memory canonical. -/
theorem Memory.wf_modify {m : Memory} (pg : PageId) {f : Page → Page} (hf : ∀ p, (f p).id = p.id)
    (hk : ∀ p, Grid.wf p.grid ∧ triggersWf p.triggers → Grid.wf (f p).grid ∧ triggersWf (f p).triggers)
    (h : Memory.wf m) : Memory.wf (Memory.modify m pg f) := by
  refine ⟨?_, fun q hq => ?_⟩
  · refine List.Pairwise.map _ (fun p q hpq => ?_) h.1
    split <;> split <;> simpa [hf] using hpq
  · obtain ⟨p, hp, rfl⟩ := List.mem_map.1 hq
    split
    · exact hk p (h.2 p hp)
    · exact h.2 p hp

theorem Page.store_id (p : Page) (a : Addr) (v : Byte) : (p.store a v).id = p.id := rfl

theorem memWrite_wf {s : State} (pg : PageId) (a : Addr) (v : Byte) (h : Memory.wf s.memory) :
    Memory.wf (memWrite s pg a v).memory :=
  Memory.wf_modify pg (fun _ => rfl) (fun _ hp => ⟨Grid.wf_write v a.isLt hp.1, hp.2⟩) h

theorem memWrite_ids (s : State) (pg : PageId) (a : Addr) (v : Byte) : (memWrite s pg a v).memory.ids = s.memory.ids :=
  Memory.ids_modify _ _ _ fun _ => rfl

theorem memRead_memWrite_other (s : State) {pg pg' : PageId} {a a' : Addr} (v : Byte) (h : ¬(pg' = pg ∧ a' = a)) :
    memRead (memWrite s pg a v) pg' a' = memRead s pg' a' := by
  unfold memRead memWrite
  simp only [Memory.page?_modify _ _ _ _ fun p => Page.store_id p a v]
  split_ifs with hpg
  · have ha : a'.toNat ≠ a.toNat := addr_ne_toNat fun e => h ⟨hpg, e⟩
    cases Memory.page? s.memory pg' with
    | none => rfl
    | some p => exact Grid.read_write_other _ _ ha
  · rfl

theorem memRead_memWrite_same {s : State} (pg : PageId) (a : Addr) (v : Byte) (hwf : Memory.wf s.memory)
    (hl : pg ∈ s.memory.ids) : memRead (memWrite s pg a v) pg a = v := by
  unfold memRead memWrite
  simp only [Memory.page?_modify _ _ _ _ fun p => Page.store_id p a v, if_true]
  have hp : ∃ p, s.memory.page? pg = some p := by
    generalize s.memory = m at hl
    induction m with
    | nil => simp [Memory.ids] at hl
    | cons q m ih =>
      simp only [Memory.page?]
      split
      · exact ⟨q, rfl⟩
      · rename_i hq
        refine ih ?_
        simp only [Memory.ids, List.map_cons, List.mem_cons] at hl ⊢
        exact hl.resolve_left fun e => hq e.symm
  obtain ⟨p, hp⟩ := hp
  simp only [hp, Option.map_some]
  exact Grid.read_write_same _ _ (hwf.2 p (Memory.page?_mem hp).1).1

/-- On the null page a read gives 0 and a write changes nothing (20_memory.md R57, R58). -/
theorem Memory.modify_unloaded {m : Memory} {pg : PageId} (f : Page → Page) (h : pg ∉ m.ids) : Memory.modify m pg f = m := by
  simp only [Memory.modify]
  conv_rhs => rw [← List.map_id m]
  refine List.map_congr_left fun p hp => ?_
  rw [if_neg]
  · rfl
  · intro e
    exact h (e ▸ List.mem_map_of_mem hp)

/-! The other operations on memory. -/

theorem patchBytes_wf {g : Grid} (a : Nat) (bs : List Byte) (h : Grid.wf g) : Grid.wf (patchBytes g a bs) := by
  induction bs generalizing g a with
  | nil => exact h
  | cons b bs ih =>
    simp only [patchBytes]
    apply ih
    split
    · exact Grid.wf_write b (by omega) h
    · exact h

theorem patch_wf {g : Grid} (d : List Hunk) (h : Grid.wf g) : Grid.wf (patch g d) := by
  induction d generalizing g with
  | nil => exact h
  | cons k d ih => exact ih (patchBytes_wf _ _ h)

theorem patchPage_wf {s : State} (pg : PageId) (d : List Hunk) (h : Memory.wf s.memory) :
    Memory.wf (patchPage s pg d).memory :=
  Memory.wf_modify pg (fun _ => rfl) (fun _ hp => ⟨patch_wf d hp.1, hp.2⟩) h

theorem patchPage_ids (s : State) (pg : PageId) (d : List Hunk) : (patchPage s pg d).memory.ids = s.memory.ids :=
  Memory.ids_modify _ _ _ fun _ => rfl

theorem markTriggered_wf {m : Memory} (pg : PageId) (a : Addr) (h : Memory.wf m) :
    Memory.wf (Memory.modify m pg (Page.markTriggered a)) := by
  refine Memory.wf_modify pg (fun _ => rfl) (fun p hp => ⟨hp.1, ?_⟩) h
  refine List.Pairwise.map _ (fun t u htu => ?_) hp.2
  split <;> split <;> exact htu

theorem markTriggered_ids (m : Memory) (pg : PageId) (a : Addr) :
    (Memory.modify m pg (Page.markTriggered a)).ids = m.ids :=
  Memory.ids_modify _ _ _ fun _ => rfl

theorem Memory.ensure_mem {m : Memory} {pg : PageId} {p : Page} (h : p ∈ Memory.ensure m pg) :
    p ∈ m ∨ p = ⟨pg, [], []⟩ := by
  induction m with
  | nil => exact Or.inr (by simpa [Memory.ensure] using h)
  | cons q m ih =>
    simp only [Memory.ensure] at h
    split_ifs at h with h1 h2
    · exact Or.inl h
    · rcases List.mem_cons.1 h with h | h
      · exact Or.inr h
      · exact Or.inl h
    · rcases List.mem_cons.1 h with h | h
      · exact Or.inl (h ▸ List.mem_cons_self ..)
      · exact (ih h).imp (List.mem_cons_of_mem _) id

theorem Memory.ensure_wf {m : Memory} (pg : PageId) (h : Memory.wf m) : Memory.wf (Memory.ensure m pg) := by
  refine ⟨?_, fun p hp => ?_⟩
  · induction m with
    | nil => simp [Memory.ensure]
    | cons q m ih =>
      have hq := List.pairwise_cons.1 h.1
      simp only [Memory.ensure]
      split_ifs with h1 h2
      · exact h.1
      · refine List.pairwise_cons.2 ⟨fun p hp => ?_, h.1⟩
        rcases List.mem_cons.1 hp with hp | hp
        · subst hp; exact h2
        · exact lt_trans h2 (hq.1 p hp)
      · refine List.pairwise_cons.2 ⟨fun p hp => ?_, ih ⟨hq.2, fun r hr => h.2 r (List.mem_cons_of_mem _ hr)⟩⟩
        rcases Memory.ensure_mem hp with hp | hp
        · exact hq.1 p hp
        · subst hp
          have : q.id.toNat ≠ pg.toNat := fun e => h1 (BitVec.eq_of_toNat_eq e)
          show q.id.toNat < pg.toNat
          omega
  · rcases Memory.ensure_mem hp with hp | hp
    · exact h.2 p hp
    · subst hp; exact ⟨⟨List.Pairwise.nil, by simp⟩, List.Pairwise.nil⟩

theorem storeRow_wf {s : State} (pg : PageId) (x y : Byte) (bs : List Byte) (h : Memory.wf s.memory) :
    Memory.wf (storeRow s pg x y bs).memory := by
  induction bs generalizing s x with
  | nil => exact h
  | cons b bs ih => exact ih _ (memWrite_wf _ _ _ h)

theorem placeInstruction_wf {s : State} (bs : List Byte) (h : Memory.wf s.memory) :
    Memory.wf (placeInstruction s bs).memory :=
  storeRow_wf _ _ _ _ (Memory.ensure_wf _ h)

theorem reset_memory_canonical : Memory.wf State.reset.memory := by decide

end Sys2Proof.Machine
end

