-- ==== Sys2Proof/Laws/Ops.lean ====
section
/-! SUPPORT. For each shared operation, once, everything it can do. -/

namespace Sys2Proof.Machine

/-! The overlay (21_overlay.md). -/

theorem effective_true (v m : Byte) : effective v true m = v ||| m := rfl
theorem effective_false (v m : Byte) : effective v false m = v := rfl

/-- A cell reads with the mask where the player stands on its active page, and as stored elsewhere. -/
theorem memReadEff_cases (s : State) (pg : PageId) (a : Addr) :
    (s.player = .pos (xof a) (yof a) ∧ s.activePage = pg ∧ memReadEff s pg a = memRead s pg a ||| playerMask s.cfg) ∨
    (¬(s.player = .pos (xof a) (yof a) ∧ s.activePage = pg) ∧ memReadEff s pg a = memRead s pg a) := by
  by_cases h : s.player = .pos (xof a) (yof a) ∧ s.activePage = pg
  · exact Or.inl ⟨h.1, h.2, by simp [memReadEff, playerAtCell, h, effective]⟩
  · exact Or.inr ⟨h, by simp only [memReadEff, playerAtCell, h, effective, decide_false]; rfl⟩

/-- A register reads with the mask where the player stands, and as stored elsewhere. -/
theorem regEff_cases (s : State) (r : RegId) :
    (s.player = .reg r ∧ regEff s r = s.reg r ||| playerMask s.cfg) ∨ (s.player ≠ .reg r ∧ regEff s r = s.reg r) := by
  by_cases h : s.player = .reg r
  · exact Or.inl ⟨h, by simp [regEff, playerAtReg, h, effective]⟩
  · exact Or.inr ⟨h, by simp [regEff, playerAtReg, h, effective]⟩

/-! Swap (42_swap.md R135). -/

/-- The player travels with the byte, in exactly two cases. -/
theorem carryPlayer_cases (pg : PageId) (a : Addr) (s : State) :
    (s.player = .pos (xof a) (yof a) ∧ carryPlayer pg a s = { s with player := .reg .data }) ∨
    (s.player = .reg .data ∧ carryPlayer pg a s = { s with player := .pos (xof a) (yof a), activePage := pg }) ∨
    (s.player ≠ .pos (xof a) (yof a) ∧ s.player ≠ .reg .data ∧ carryPlayer pg a s = s) := by
  unfold carryPlayer
  split_ifs with h1 h2
  · exact Or.inl ⟨h1, rfl⟩
  · exact Or.inr (Or.inl ⟨h2, rfl⟩)
  · exact Or.inr (Or.inr ⟨h1, h2, rfl⟩)

@[simp] theorem swapAt_pc (pg : PageId) (a : Addr) (s : State) : (swapAt pg a s).pc = s.pc := by simp [swapAt]
@[simp] theorem swapAt_cfg (pg : PageId) (a : Addr) (s : State) : (swapAt pg a s).cfg = s.cfg := by simp [swapAt]
@[simp] theorem swapAt_flag (pg : PageId) (a : Addr) (s : State) :
    (swapAt pg a s).pageInstrExecuted = s.pageInstrExecuted := by simp [swapAt]
@[simp] theorem swapAt_endOfLevel (pg : PageId) (a : Addr) (s : State) :
    (swapAt pg a s).endOfLevel = s.endOfLevel := by simp [swapAt]
@[simp] theorem swapAt_visited (pg : PageId) (a : Addr) (s : State) : (swapAt pg a s).visited = s.visited := by
  simp [swapAt]
@[simp] theorem swapAt_messages (pg : PageId) (a : Addr) (s : State) : (swapAt pg a s).messages = s.messages := by
  simp [swapAt]
@[simp] theorem swapAt_inputs (pg : PageId) (a : Addr) (s : State) : (swapAt pg a s).inputs = s.inputs := by
  simp [swapAt]
@[simp] theorem swapAt_memory (pg : PageId) (a : Addr) (s : State) :
    (swapAt pg a s).memory = (memWrite s pg a (s.reg .data)).memory := by simp [swapAt]
@[simp] theorem swapAt_reg_data (pg : PageId) (a : Addr) (s : State) :
    (swapAt pg a s).reg .data = memRead s pg a := by simp [swapAt]
@[simp] theorem swapAt_reg_page (pg : PageId) (a : Addr) (s : State) : (swapAt pg a s).reg .page = s.reg .page := by
  simp [swapAt]
@[simp] theorem swapAt_reg_compare (pg : PageId) (a : Addr) (s : State) :
    (swapAt pg a s).reg .compare = s.reg .compare := by simp [swapAt]

/-! Reads depend on the memory alone. -/

theorem memRead_congr {s t : State} (h : t.memory = s.memory) (pg : PageId) (a : Addr) :
    memRead t pg a = memRead s pg a := by simp only [memRead, h]

theorem triggerTable_congr {s t : State} (h : t.memory = s.memory) (pg : PageId) :
    triggerTable t pg = triggerTable s pg := by simp only [triggerTable, h]

/-- Marking a trigger changes no stored byte. -/
theorem memRead_markTriggered (s : State) (pg : PageId) (a : Addr) (pg' : PageId) (a' : Addr) :
    memRead { s with memory := s.memory.modify pg (Page.markTriggered a) } pg' a' = memRead s pg' a' := by
  simp only [memRead]
  rw [Memory.page?_modify _ _ _ (Page.markTriggered a) fun _ => rfl]
  split_ifs
  · cases Memory.page? s.memory pg' <;> rfl
  · rfl

/-- Marking a trigger changes no page of another id. -/
theorem page?_markTriggered_other (m : Memory) {pg pg' : PageId} (a : Addr) (h : pg' ≠ pg) :
    (m.modify pg (Page.markTriggered a)).page? pg' = m.page? pg' := by
  rw [Memory.page?_modify _ _ _ (Page.markTriggered a) fun _ => rfl, if_neg h]

/-- The trigger table of the page after a trigger is marked. -/
theorem triggerTable_markTriggered (s : State) (pg : PageId) (a : Addr) :
    triggerTable { s with memory := s.memory.modify pg (Page.markTriggered a) } pg =
      (triggerTable s pg).map fun t => if t.position = a then { t with triggered := true } else t := by
  simp only [triggerTable]
  rw [Memory.page?_modify _ _ _ (Page.markTriggered a) fun _ => rfl, if_pos rfl]
  cases Memory.page? s.memory pg <;> rfl

/-- Storing a byte changes no trigger table. -/
theorem triggerTable_memWrite (s : State) (pg : PageId) (a : Addr) (v : Byte) (pg' : PageId) :
    triggerTable (memWrite s pg a v) pg' = triggerTable s pg' := by
  simp only [triggerTable, memWrite]
  rw [Memory.page?_modify _ _ _ (fun p => p.store a v) fun _ => rfl]
  split_ifs
  · cases Memory.page? s.memory pg' <;> rfl
  · rfl

/-! The host's action, phase 1 (55_host_interface.md R201). -/

theorem gridMove_cases (d : Dir) (x y : Byte) (s : State) :
    gridMove d x y s = (s, .blocked) ∨
    ∃ cx cy, moveCandidate s.cfg.wrapMode d x y = some (cx, cy) ∧
      accessible s.cfg (memReadEff s s.activePage (pack cx cy)) = true ∧
      gridMove d x y s = ({ s with player := .pos cx cy }, .relocated) := by
  unfold gridMove
  split
  · exact Or.inl rfl
  · rename_i cx cy h
    split_ifs with ha
    · exact Or.inr ⟨cx, cy, h, ha, rfl⟩
    · exact Or.inl rfl

theorem registerMove_cases (d : Dir) (r : RegId) (s : State) :
    registerMove d r s = s ∨
    ∃ dest, regMoveDest d r = some dest ∧ accessible s.cfg (regEff s dest) = true ∧
      registerMove d r s =
        { s with player := .reg dest, activePage := regEff { s with player := .reg dest } .page } := by
  unfold registerMove
  split
  · exact Or.inl rfl
  · rename_i dest h
    split_ifs with ha
    · exact Or.inr ⟨dest, h, ha, rfl⟩
    · exact Or.inl rfl

theorem rotatePage_cases (s : State) :
    rotatePage s = s ∨
    ∃ x y c, s.player = .pos x y ∧ rotateAllowed s = true ∧ rotateSearch s.visited 255 s.activePage = some c ∧
      rotatePage s = { s with activePage := c } := by
  unfold rotatePage
  split
  · exact Or.inl rfl
  · rename_i x y hp
    split_ifs with ha
    · split
      · rename_i c hc
        exact Or.inr ⟨x, y, c, hp, ha, hc, rfl⟩
      · exact Or.inl rfl
    · exact Or.inl rfl

/-- Phase 1 changes the player and the active page at most. -/
theorem performAction_place (a : Action) (s : State) :
    ∃ p pg, (performAction a s).1 = { s with player := p, activePage := pg } := by
  unfold performAction
  split
  · rename_i d x y _
    rcases gridMove_cases d x y s with h | ⟨cx, cy, _, _, h⟩ <;> rw [h]
    · exact ⟨s.player, s.activePage, rfl⟩
    · exact ⟨.pos cx cy, s.activePage, rfl⟩
  · rename_i d r _
    rcases registerMove_cases d r s with h | ⟨dest, _, _, h⟩ <;> rw [h]
    · exact ⟨s.player, s.activePage, rfl⟩
    · exact ⟨_, _, rfl⟩
  · rcases rotatePage_cases s with h | ⟨x, y, c, _, _, _, h⟩ <;> rw [h]
    · exact ⟨s.player, s.activePage, rfl⟩
    · exact ⟨s.player, c, rfl⟩

/-! Phase 2: triggers (R215, R216). -/

theorem fireAt_cases (pg : PageId) (a : Addr) (s : State) :
    fireAt pg a s = s ∨
    ∃ t, findTrigger (triggerTable s pg) a = some t ∧ t.isActive = true ∧
      fireAt pg a s = applyEffect t.effect { s with memory := s.memory.modify pg (Page.markTriggered a) } := by
  unfold fireAt
  split
  · exact Or.inl rfl
  · rename_i t h
    split_ifs with ha
    · exact Or.inr ⟨t, h, ha, rfl⟩
    · exact Or.inl rfl

theorem evaluateTriggers_cases (l : Landing) (s : State) :
    evaluateTriggers l s = s ∨
    ∃ x y, s.player = .pos x y ∧ evaluatesTriggers s.cfg l = true ∧
      evaluateTriggers l s = fireAt s.activePage (pack x y) s := by
  unfold evaluateTriggers
  split
  · exact Or.inl rfl
  · rename_i x y hp
    split_ifs with h
    · exact Or.inr ⟨x, y, hp, h, rfl⟩
    · exact Or.inl rfl

/-! The codec (50_diff_codec.md). -/

/-- No hunk is empty (R170, R171). -/
theorem Hunk.bytes_ne_nil (h : Hunk) : h.bytes ≠ [] := List.cons_ne_nil _ _
@[simp] theorem Hunk.bytes_length (h : Hunk) : h.bytes.length = h.rest.length + 1 := rfl
theorem Hunk.stop_eq (h : Hunk) : h.stop = h.start.toNat + h.rest.length + 1 := rfl
@[simp] theorem Hunk.begin_bytes (after : Grid) (a : Nat) : (Hunk.begin after a).bytes = [after.read a] := rfl
@[simp] theorem Hunk.extend_start (after : Grid) (a : Nat) (h : Hunk) : (h.extend after a).start = h.start := rfl
@[simp] theorem Hunk.extend_bytes (after : Grid) (a : Nat) (h : Hunk) :
    (h.extend after a).bytes = h.bytes ++ readRun after h.stop (a - h.stop) ++ [after.read a] := rfl

/-- Everything one address of the scan can do (R172). -/
theorem diffStep_cases (gap : Nat) (before after : Grid) (a : Nat) (st : DiffState) :
    (before.read a = after.read a ∧ diffStep gap before after a st = st) ∨
    (before.read a ≠ after.read a ∧ st.cur = none ∧
      diffStep gap before after a st = { st with cur := some (Hunk.begin after a) }) ∨
    ∃ h, before.read a ≠ after.read a ∧ st.cur = some h ∧
      ((a - h.stop ≤ gap ∧ diffStep gap before after a st = { st with cur := some (h.extend after a) }) ∨
        (gap < a - h.stop ∧ diffStep gap before after a st = ⟨st.hunks ++ [h], some (Hunk.begin after a)⟩)) := by
  unfold diffStep
  split_ifs with hb
  · exact Or.inl ⟨hb, rfl⟩
  · split
    · rename_i hc
      exact Or.inr (Or.inl ⟨hb, hc, rfl⟩)
    · rename_i h hc
      refine Or.inr (Or.inr ⟨h, hb, hc, ?_⟩)
      split_ifs with hg
      · exact Or.inl ⟨hg, rfl⟩
      · exact Or.inr ⟨Nat.lt_of_not_le hg, rfl⟩

/-! Phases 1 and 2 together. -/

/-- The state before the CPU's step is the state after the action, or that state with one active trigger of the
active page, keyed by the player's cell, fired. -/
theorem beforeCpuStep_cases (a : Action) (s : State) :
    beforeCpuStep a s = (performAction a s).1 ∨
    ∃ x y t, evaluatesTriggers s.cfg (performAction a s).2 = true ∧ (performAction a s).1.player = .pos x y ∧
      findTrigger (triggerTable (performAction a s).1 (performAction a s).1.activePage) (pack x y) = some t ∧
      t.isActive = true ∧
      beforeCpuStep a s = applyEffect t.effect
        { (performAction a s).1 with
          memory := (performAction a s).1.memory.modify (performAction a s).1.activePage
            (Page.markTriggered (pack x y)) } := by
  unfold beforeCpuStep
  have hc : (performAction a s).1.cfg = s.cfg := by
    obtain ⟨p, pg, h⟩ := performAction_place a s
    rw [h]
  rcases evaluateTriggers_cases (performAction a s).2 (performAction a s).1 with h | ⟨x, y, hp, he, h⟩
  · exact Or.inl h
  · rcases fireAt_cases (performAction a s).1.activePage (pack x y) (performAction a s).1 with h' | ⟨t, ht, hta, h'⟩
    · exact Or.inl (h.trans h')
    · exact Or.inr ⟨x, y, t, hc ▸ he, hp, ht, hta, h.trans h'⟩

end Sys2Proof.Machine
end

