-- ==== Sys2Proof/Laws/PerInstr.lean ====
section
/-! SUPPORT. Facts about each instruction as syntax, one lemma per constructor. -/

namespace Sys2Proof.Laws.EncodeLength

/-- The encoding has as many bytes as the format says (30_encoding.md R91), under either operand order. -/
def Statement (i : Instr) : Prop := ∀ o, (encode o i).length = i.format.bytes

theorem add (v : Byte) : Statement (.add v) := fun _ => rfl
theorem compare (v : Byte) : Statement (.compare v) := fun _ => rfl
theorem jumpEqual (t : Addr) : Statement (.jumpEqual t) := fun o => by cases o <;> rfl
theorem jumpGreater (t : Addr) : Statement (.jumpGreater t) := fun o => by cases o <;> rfl
theorem jump (t : Addr) : Statement (.jump t) := fun o => by cases o <;> rfl
theorem jumpLess (t : Addr) : Statement (.jumpLess t) := fun o => by cases o <;> rfl
theorem page (v : Byte) : Statement (.page v) := fun _ => rfl
theorem swap (t : Addr) : Statement (.swap t) := fun o => by cases o <;> rfl
theorem noneOp (op : Byte) : Statement (.noneOp op) := fun _ => rfl

end Sys2Proof.Laws.EncodeLength
end

