-- ==== Sys2Proof/Laws/Step.lean ====
section
/-! SUPPORT. What one step can do, said once. -/

namespace Sys2Proof.Machine

theorem Outcome_next_inj {s t : State} (h : (Host.Outcome.next s : Host.Outcome State Fault Refusal) = .next t) : s = t := by
  cases h; rfl

theorem cpuStep_cases {s t : State} (h : cpuStep s = .next t) :
    (gate s = false ∧ t = s) ∨ (gate s = true ∧ exec (fetched s) s = .next t) := by
  unfold cpuStep at h
  split at h
  · rename_i hg
    exact Or.inr ⟨hg, h⟩
  · rename_i hg
    exact Or.inl ⟨by simpa using hg, (Outcome_next_inj h).symm⟩

/-- Everything a step that goes on can have been. -/
theorem step_cases {s t : State} (h : step s = .next t) :
    (s.inputs = [] ∧ t = s) ∨
    (∃ pg d rest, s.inputs = .patch pg d :: rest ∧ t = patchPage { s with inputs := rest } pg d) ∨
    (∃ pg rest, s.inputs = .visitedSet pg :: rest ∧ t = { s with inputs := rest, visited := s.visited.set pg }) ∨
    (∃ pg rest, s.inputs = .visitedClear pg :: rest ∧ t = { s with inputs := rest, visited := s.visited.clear pg }) ∨
    (∃ a rest, s.inputs = .makeMove a :: rest ∧ gate (beforeCpuStep a { s with inputs := rest }) = false ∧
      t = beforeCpuStep a { s with inputs := rest }) ∨
    (∃ a rest, s.inputs = .makeMove a :: rest ∧ gate (beforeCpuStep a { s with inputs := rest }) = true ∧
      exec (fetched (beforeCpuStep a { s with inputs := rest })) (beforeCpuStep a { s with inputs := rest }) = .next t) := by
  unfold step transition at h
  split at h
  · rename_i hi
    exact Or.inl ⟨hi, (Outcome_next_inj h).symm⟩
  · rename_i i rest hi
    right
    cases i with
    | patch pg d => exact Or.inl ⟨pg, d, rest, hi, (Outcome_next_inj h).symm⟩
    | visitedSet pg => exact Or.inr (Or.inl ⟨pg, rest, hi, (Outcome_next_inj h).symm⟩)
    | visitedClear pg => exact Or.inr (Or.inr (Or.inl ⟨pg, rest, hi, (Outcome_next_inj h).symm⟩))
    | makeMove a =>
      right; right; right
      rcases cpuStep_cases h with ⟨hg, ht⟩ | ⟨hg, ht⟩
      · exact Or.inl ⟨a, rest, hi, hg, ht⟩
      · exact Or.inr ⟨a, rest, hi, hg, ht⟩

end Sys2Proof.Machine
end

