-- ==== Sys2Proof/Tests/Slice0.lean ====
section
/-! SUPPORT. Tests of the model. Expected values come from spec/95_test_vectors.md (the vector is named) or from the
rule named; none is the model's own answer. -/

namespace Sys2Proof.Tests

open Sys2Proof.Machine

/-- Page 1 loaded with these cells, `x[PAGE]` = `active_page` = 1, the player parked at (0xEE, 0xEE), and the host about
to issue a RotatePage, which changes nothing because no page is visited (section 5's start state). -/
def machineAt (pc : Addr) (data compare : Byte) (cells : Grid) : State :=
  { (((State.reset.setReg .page 1).setReg .data data).setReg .compare compare) with
    pc := pc, player := .pos 0xEE 0xEE, activePage := 1, memory := [⟨1, cells, []⟩], inputs := [.makeMove .rotatePage],
    cfg := { Config.atReset with rotateRule := .never } }

/-- What a field of the state is after one step. -/
def after {α : Type} (s : State) (f : State → α) : Option α :=
  match step s with
  | .next t => some (f t)
  | .fault _ => none
  | .refused _ => none

/-- The state after one step, for a test over several host actions. -/
def stepped (s : State) : State :=
  match step s with
  | .next t => t
  | .fault _ => s
  | .refused _ => s

/-! Well-formedness: a None that keeps an opcode byte is refused. -/

theorem test_wf_refuses_none_of_opcode : Instr.wellFormed (.noneOp 0x61) = false := by decide
theorem test_wf_refuses_none_of_every_opcode :
    ([0x61, 0x63, 0x65, 0x67, 0x6A, 0x6C, 0x70, 0x73] : List Byte).all (fun b => !Instr.wellFormed (.noneOp b)) = true := by decide
theorem test_wf_accepts_none : Instr.wellFormed (.noneOp 0x4A) = true := by decide

/-! Decoding, one word written out per row (vectors E1 to E10 and 30_encoding.md R92). -/

theorem test_decode_add : decodeRow .xy [0b01100001, 0x05] = .ok (.add 0x05) := by decide
theorem test_decode_compare : decodeRow .xy [0b01100011, 0x05] = .ok (.compare 0x05) := by decide
theorem test_decode_jumpEqual : decodeRow .xy [0b01100101, 0x10, 0x04] = .ok (.jumpEqual 0x1004) := by decide
theorem test_decode_jumpGreater : decodeRow .xy [0b01100111, 0x05, 0x06] = .ok (.jumpGreater 0x0506) := by decide
theorem test_decode_jump : decodeRow .xy [0b01101010, 0x10, 0x00] = .ok (.jump 0x1000) := by decide
theorem test_decode_jump_yx : decodeRow .yx [0b01101010, 0x10, 0x00] = .ok (.jump 0x0010) := by decide
theorem test_decode_jumpLess : decodeRow .xy [0b01101100, 0x05, 0x04] = .ok (.jumpLess 0x0504) := by decide
theorem test_decode_page : decodeRow .xy [0b01110000, 0x02] = .ok (.page 0x02) := by decide
theorem test_decode_swap : decodeRow .xy [0b01110011, 0x30, 0x01] = .ok (.swap 0x3001) := by decide
theorem test_decode_none : decodeRow .xy [0b00000000, 0x10, 0x00] = .ok (.noneOp 0x00) := by decide
theorem test_decode_upper_case : decodeRow .xy [0x4A, 0x10, 0x00] = .ok (.noneOp 0x4A) := by decide
theorem test_decode_empty : decodeRow .xy [] = .error .noOpcodeCell := by decide
theorem test_encode_jump : encode .xy (.jump 0x1234) = [0x6A, 0x12, 0x34] := by decide
theorem test_encode_yx : encode .yx (.swap 0x1234) = [0x73, 0x34, 0x12] := by decide
/-- "exactly 0x61, 0x63, 0x65, 0x67, 0x6A, 0x6C, 0x70, 0x73 decode to an instruction; the other 248 decode to None"
(vectors, section 4). -/
theorem test_decode_counts :
    ((List.range 256).filter fun n => !isNone (decode .xy (BitVec.ofNat 8 n) 0 0)) =
      [0x61, 0x63, 0x65, 0x67, 0x6A, 0x6C, 0x70, 0x73] := by decide
/-- The table writes the opcode as the most significant byte. -/
theorem test_table_word : decodeTableWord 24 0x6A1234 = some (.jump 0x1234) := by decide
theorem test_table_word_none : decodeTableWord 8 0x00 = some (.noneOp 0x00) := by decide

/-! Dual addressing (vectors A2, A6, A8) and overlay (O3, O6, O9, O11, O14). -/

theorem test_pack : pack 0x10 0x04 = 0x1004 := by decide
theorem test_unpack : (xof 0x1234, yof 0x1234) = (0x12, 0x34) := by decide
theorem test_overlay_cell :
    memReadEff { machineAt 0 0 0 [(0x0203, 0x2A)] with player := .pos 2 3 } 1 0x0203 = 0x6A := by decide
theorem test_overlay_other_page :
    memReadEff { machineAt 0 0 0 [] with player := .pos 2 3 } 2 0x0203 = 0x00 := by decide
theorem test_overlay_null_page :
    memReadEff { machineAt 0 0 0 [] with player := .pos 0 0, activePage := 9 } 9 0x0000 = 0x40 := by decide
theorem test_overlay_register :
    regEff { machineAt 0 0 0 [] with player := .reg .page } .page = 0x41 := by decide
theorem test_accessible_offset0 :
    accessible { Config.atReset with playerOffset := 0 } 0x6A = true ∧
    accessible { Config.atReset with playerOffset := 0 } 0x61 = false := by decide

/-! Operand fetch at the right edge (E4, E5) and through the overlay (E12). -/

theorem test_operand_edge :
    readInstruction (machineAt 0 0 0 [(0xFE07, 0x6A), (0xFF07, 0x12)]) 1 0xFE07 = .jump 0x1200 := by decide
theorem test_operand_overlay :
    readInstruction { machineAt 0 0 0 [(0x0300, 0x61), (0x0400, 0x05)] with player := .pos 4 0 } 1 0x0300 = .add 0x45 := by
  decide

/-! Instructions, one step each. -/

/-- J1. -/
theorem test_jump : after (machineAt 0x1003 0 0 [(0x1003, 0x6A), (0x1103, 0x10)]) State.pc = some 0x1000 := by decide
/-- J3: saturated advance overwritten. -/
theorem test_jump_at_end : after (machineAt 0xFFFF 0 0 [(0xFFFF, 0x6A)]) State.pc = some 0x0000 := by decide
/-- B1 and B4, JumpEqual. -/
theorem test_jumpEqual_taken :
    after (machineAt 0x0500 0 0x00 [(0x0500, 0x65), (0x0600, 0x09)]) State.pc = some 0x0900 := by decide
theorem test_jumpEqual_not_taken :
    after (machineAt 0x0500 0 0x02 [(0x0500, 0x65), (0x0600, 0x09)]) State.pc = some 0x0501 := by decide
/-- B4 and B7, JumpLess. -/
theorem test_jumpLess_taken :
    after (machineAt 0x0500 0 0x02 [(0x0500, 0x6C), (0x0600, 0x09)]) State.pc = some 0x0900 := by decide
theorem test_jumpLess_not_taken_at_end : after (machineAt 0xFFFF 0 0x01 [(0xFFFF, 0x6C)]) State.pc = some 0xFFFF := by decide
/-- B2 and B3, JumpGreater. -/
theorem test_jumpGreater_taken :
    after (machineAt 0x0500 0 0x01 [(0x0500, 0x67), (0x0600, 0x09)]) State.pc = some 0x0900 := by decide
theorem test_jumpGreater_not_taken :
    after (machineAt 0x0500 0 0xFF [(0x0500, 0x67), (0x0600, 0x09)]) State.pc = some 0x0501 := by decide
/-- AD3 and AD10. -/
theorem test_add_wraps :
    after (machineAt 0x00FF 0x80 0 [(0x00FF, 0x61), (0x01FF, 0x80)]) (fun t => (t.reg .data, t.pc)) = some (0x00, 0x0100) := by
  decide
/-- AD8: the player's bit is not added in. -/
theorem test_add_player_on_data :
    after { machineAt 0x1000 0x10 0 [(0x1000, 0x61), (0x1100, 0x05)] with player := .reg .data }
      (fun t => (t.reg .data, regEff t .data)) = some (0x15, 0x55) := by decide
/-- C3 and C4. -/
theorem test_compare_less :
    after (machineAt 0x1000 0x04 0 [(0x1000, 0x63), (0x1100, 0x05)]) (State.reg · .compare) = some 0xFF := by decide
theorem test_compare_unsigned :
    after (machineAt 0x1000 0x80 0 [(0x1000, 0x63), (0x1100, 0x7F)]) (State.reg · .compare) = some 0x01 := by decide
/-- SW2. -/
theorem test_swap_takes_player :
    after { machineAt 0x2000 0x07 0 [(0x2000, 0x73), (0x2100, 0x30), (0x3000, 0x11)] with player := .pos 0x30 0 }
      (fun t => (t.reg .data, memRead t 1 0x3000, t.player, t.pc)) = some (0x11, 0x07, .reg .data, 0x2001) := by decide
/-- SW3. -/
theorem test_swap_puts_player :
    after { machineAt 0x2001 0x11 0 [(0x2001, 0x73), (0x2101, 0x30), (0x2201, 0x01), (0x3001, 0x22)] with
        player := .reg .data }
      (fun t => (t.reg .data, memReadEff t 1 0x3001, t.player)) = some (0x22, 0x51, .pos 0x30 1) := by decide
/-- PG1. -/
theorem test_page :
    after (machineAt 0x0504 0 0 [(0x0504, 0x70), (0x0604, 0x02)])
      (fun t => (t.reg .page, t.activePage, t.pageInstrExecuted, t.pc)) = some (2, 2, true, 0x0505) := by decide
/-- PG2: page switching disabled. -/
theorem test_page_disabled :
    after { machineAt 0x0504 0 0 [(0x0504, 0x70), (0x0604, 0x02)] with
        cfg := { Config.atReset with pageSwitchEnabled := false, rotateRule := .never } }
      (fun t => (t.reg .page, t.activePage, t.pageInstrExecuted, t.pc)) = some (1, 1, false, 0x0505) := by decide
/-- N2: a stored 0x21 with the player elsewhere. -/
theorem test_none : after (machineAt 0x0300 0x10 0 [(0x0300, 0x21)]) (fun t => (t.pc, t.reg .data)) = some (0x0300, 0x10) := by
  decide
/-- N3: the same with the player on it. -/
theorem test_none_becomes_add :
    after { machineAt 0x0300 0x10 0 [(0x0300, 0x21), (0x0400, 0x05)] with player := .pos 3 0 }
      (fun t => (t.pc, t.reg .data)) = some (0x0301, 0x15) := by decide
/-- G2 and G3: the gate reads the effective Page register. -/
theorem test_gate_closed :
    after { machineAt 0x0100 0 0 [(0x0100, 0x61), (0x0200, 0x01)] with player := .reg .page } State.pc = some 0x0100 := by
  decide
theorem test_gate_open_on_overlaid_page :
    after { machineAt 0x0100 0 0 [] with
        player := .reg .page, activePage := 0x41, memory := [⟨1, [], []⟩, ⟨0x41, [(0x0100, 0x61), (0x0200, 0x01)], []⟩] }
      (fun t => (t.pc, t.reg .data)) = some (0x0101, 1) := by decide

/-! Placing an instruction after reset. -/

theorem test_fetch_word_add : after (State.reset.withFetchWord 16 0x6105) (State.reg · .data) = some 0x05 := by decide
theorem test_fetch_word_jump : after (State.reset.withFetchWord 24 0x6A1234) State.pc = some 0x1234 := by decide
theorem test_reset_idles : after State.reset State.pc = some 0 := by decide

/-! The host: movement (W1, W5, W7), register list (RM1, RM3, RM5), rotation (R211), triggers (T1, T4, T5). -/

theorem test_wrap_modes_up :
    (moveCandidate .block .up 0 0, moveCandidate .wrapLine .up 0 0, moveCandidate .wrapGrid .up 0 0) =
      (none, some (0, 255), some (255, 255)) := by decide
theorem test_wrap_modes_down :
    (moveCandidate .block .down 5 255, moveCandidate .wrapLine .down 5 255, moveCandidate .wrapGrid .down 5 255) =
      (none, some (5, 0), some (6, 0)) := by decide
theorem test_wrap_modes_right :
    (moveCandidate .block .right 255 7, moveCandidate .wrapLine .right 255 7, moveCandidate .wrapGrid .right 255 7) =
      (none, some (0, 7), some (0, 7)) := by decide
theorem test_move_blocked :
    (performAction (.move .right) { machineAt 0 0 0 [(0x0404, 0x40)] with player := .pos 3 4 }).1.player = .pos 3 4 := by
  decide
theorem test_move_accessible :
    (performAction (.move .right) { machineAt 0 0 0 [(0x0404, 0x3F)] with player := .pos 3 4 }).1.player = .pos 4 4 := by
  decide
theorem test_register_down :
    after { machineAt 0 0x10 0 [] with player := .reg .data, inputs := [.makeMove (.move .down)] }
      (fun t => (t.player, t.activePage)) = some (.reg .page, 0x41) := by decide
theorem test_register_list_end :
    after { machineAt 0 0x10 0 [] with player := .reg .compare, inputs := [.makeMove (.move .down)] } State.player =
      some (.reg .compare) := by decide
theorem test_register_blocked :
    after { machineAt 0 0x50 0 [] with player := .reg .page, inputs := [.makeMove (.move .up)] } State.player =
      some (.reg .page) := by decide
theorem test_rotate_wraps_past_255 :
    after { machineAt 0 0 0 [] with cfg := Config.atReset, activePage := 200, visited := (Bits256.set (Bits256.set 0 0) 3) } State.activePage =
      some 3 := by decide
/-- A page with a one-time SetProgramCounter(0x1010) at (1,0) and the player at (0,0) (T1). -/
def triggerMachine (e : Effect) : State :=
  { machineAt 0 0x77 0x66 [] with
    player := .pos 0 0, memory := [⟨1, [], [⟨0x0100, e, true, false⟩]⟩], inputs := [.makeMove (.move .right)] }
theorem test_trigger_fires :
    after (triggerMachine (.setProgramCounter 0x1010))
      (fun t => (t.pc, t.player, (triggerTable t 1).map Trigger.isActive, t.reg .data)) =
      some (0x1010, .pos 1 0, [false], 0x77) := by decide
/-- T2: the one-time trigger is spent on the second visit. -/
theorem test_trigger_spent :
    after { stepped (triggerMachine (.setProgramCounter 0x1010)) with
        pc := 0x5000, player := .pos 0 0, inputs := [.makeMove (.move .right)] } State.pc = some 0x5000 := by decide
theorem test_trigger_resets_registers :
    after { triggerMachine (.setProgramCounter 0x1010) with
        cfg := { Config.atReset with triggerResetsRegs := true, triggerResetData := 3, triggerResetCompare := 4 } }
      (fun t => (t.reg .data, t.reg .compare, t.pc)) = some (3, 4, 0x1010) := by decide
theorem test_trigger_win :
    after (triggerMachine (.message "WIN")) (fun t => (t.endOfLevel, t.messages)) = some (true, ["WIN"]) := by decide
theorem test_trigger_message :
    after (triggerMachine (.message "hello")) (fun t => (t.endOfLevel, t.messages)) = some (false, ["hello"]) := by decide
/-- `instruction_range` of R222 on the strip of program P3's rows 0 to 3. -/
theorem test_instruction_range :
    instructionRange (machineAt 0 0 0 [(0x0502, 0x63), (0x0503, 0x6C), (0x0504, 0x67)]) 0x0503 = some (2, 4) := by decide

/-! The codec (X1, X1', Y1 to Y6, Y8, Z1). The scan is run over the addresses that matter, with the merge gap the
configuration holds. -/

/-- X1, at the default `DIFF_MERGE_GAP` (00_scope.md R7). -/
theorem test_diff_merges :
    diffPrefix Config.atReset 32 [] [(0x10, 1), (0x12, 2), (0x16, 3), (0x1B, 4)] =
      [⟨0x0010, 1, [0, 2, 0, 0, 0, 3]⟩, ⟨0x001B, 4, []⟩] := by decide
/-- X1'. -/
theorem test_diff_merges_gap2 :
    diffPrefix { Config.atReset with diffMergeGap := 2 } 32 [] [(0x10, 1), (0x12, 2), (0x16, 3), (0x1B, 4)] =
      [⟨0x0010, 1, [0, 2]⟩, ⟨0x0016, 3, []⟩, ⟨0x001B, 4, []⟩] := by decide
theorem test_serialize :
    serialize [⟨0x0010, 1, [0, 2, 0, 0, 0, 3]⟩, ⟨0x001B, 4, []⟩] =
      .ok [0x10, 0x00, 0x06, 1, 0, 2, 0, 0, 0, 3, 0x1B, 0x00, 0x00, 4] := by decide
theorem test_serialize_refuses : serialize [⟨0xFFFF, 5, [6]⟩] = .error .hunkPastEnd := by decide
theorem test_deserialize_past_end : deserialize [0xFF, 0xFF, 0x01, 5, 6] = .ok [⟨0xFFFF, 5, [6]⟩] := by decide
theorem test_deserialize_empty : deserialize [] = .ok [] := by decide
theorem test_deserialize : deserialize [0x34, 0x12, 2, 1, 2, 3, 0, 0, 0, 9] = .ok [⟨0x1234, 1, [2, 3]⟩, ⟨0, 9, []⟩] := by decide
theorem test_deserialize_leftover3 : deserialize [0x10, 0x00, 0x00] = .error .formatError := by decide
theorem test_deserialize_short_payload : deserialize [0x10, 0x00, 0x01, 0xAA] = .error .formatError := by decide
theorem test_deserialize_leftover1 : deserialize [0x10, 0x00, 0x00, 0xAA, 0x11] = .error .formatError := by decide
theorem test_patch_truncates : patch [] [⟨0xFFFE, 1, [2, 3, 4]⟩] = [(0xFFFE, 1), (0xFFFF, 2)] := by decide
theorem test_patch_later_wins : patch [] [⟨0x0010, 0xAA, []⟩, ⟨0x0010, 0xBB, []⟩] = [(0x0010, 0xBB)] := by decide

/-! Witnesses: for each statement with hypotheses, concrete states and operands that meet them, clause by clause. -/

/-- The state an instruction leaves. -/
def result (i : Instr) (s : State) : State :=
  match exec i s with
  | .next t => t
  | .fault _ => s
  | .refused _ => s

/-- The state after phases 1 and 2 of a RotatePage, the next pending input of `machineAt`. -/
def afterRotate (s : State) : State := beforeCpuStep .rotatePage { s with inputs := [] }

/-- The parked machine with a Jump, an Add, a Swap, a Compare or a Page at 0x1000. -/
def atOp (op : Byte) : State := machineAt 0x1000 0x10 0x20 [(0x1000, op), (0x1100, 0x02), (0x1200, 0x03)]

theorem witness_DecodeEncodeRoundTrip : Instr.wellFormed (.noneOp 0xFF) = true ∧ Instr.wellFormed (.jump 0xFFFF) = true := by
  decide
theorem witness_OverlayMakesOpcodes : (0x61 : Byte) ∈ opcodes ∧ effective 0x2A true 0x40 ∈ opcodes ∧ (0x2A : Byte) ∉ opcodes := by
  decide
theorem witness_OperandEdgeRule_past : (xof 0xFF09).toNat + 1 > 255 ∧ (xof 0xFE09).toNat + 2 > 255 := by decide
theorem witness_OperandEdgeRule_effective :
    (xof 0xFE09).toNat + 1 ≤ 255 ∧ (xof 0xFD09).toNat + 2 ≤ 255 ∧ (machineAt 0 0 0 []).cfg.operandView = .effective := by decide
theorem witness_OperandEdgeRule_stored :
    (xof 0xFE09).toNat + 1 ≤ 255 ∧ ({ Config.atReset with operandView := .stored } : Config).operandView = .stored := by decide
theorem witness_ReadInstructionCaseTable :
    ([0x6A, 0x73, 0x63, 0x65, 0x6C, 0x67, 0x61, 0x70, 0x00] : List Byte).all (fun op =>
      memReadEff (atOp op) 1 0x1000 == op && (atOp op).cfg.addrOperandOrder == .xy &&
      (0x0203 : Addr).toNat == (operand (atOp op) 1 0x1000 1).toNat * 256 + (operand (atOp op) 1 0x1000 2).toNat) = true := by
  decide
theorem witness_ReadInstructionCaseTable_yx :
    ({ Config.atReset with addrOperandOrder := .yx } : Config).addrOperandOrder = .yx := by decide
theorem witness_UnloadedPageDecodesToNone : (9 : PageId) ∉ (machineAt 0 0 0 []).memory.ids := by decide
theorem witness_RegisterOperandView :
    (machineAt 0 0 0 []).cfg.regOperandView = .stored ∧
    ({ Config.atReset with regOperandView := .effective } : Config).regOperandView = .effective := by decide
theorem witness_LinearNeighbours : (254 : Byte) ≠ 255 ∧ (1 : Byte) ≠ 0 := by decide
theorem witness_NullPage : (0 : PageId) ∉ (machineAt 0 0 0 []).memory.ids := by decide
theorem witness_PlayerMaskIsOneBit : Config.atReset.playerOffset = 6 := by decide
theorem witness_EffectiveCellValue :
    (machineAt 0 0 0 []).player = .pos (xof 0xEEEE) (yof 0xEEEE) ∧ (machineAt 0 0 0 []).activePage = 1 := by decide
theorem witness_EffectiveCellValue_unloaded :
    (0 : PageId) ∉ State.reset.memory.ids ∧ State.reset.player = .pos (xof 0x0000) (yof 0x0000) ∧
    State.reset.activePage = 0 := by decide
theorem witness_EffectiveRegisterValue :
    ({ machineAt 0 0 0 [] with player := .reg .data } : State).player = .reg .data ∧ (machineAt 0 0 0 []).player ≠ .reg .data := by
  decide
theorem witness_OnlyOneLocationIsOverlaid :
    memReadEff (machineAt 0 0 0 []) 1 0xEEEE ≠ memRead (machineAt 0 0 0 []) 1 0xEEEE ∧
    regEff { machineAt 0 0 0 [] with player := .reg .data } .data ≠ (machineAt 0 0 0 []).reg .data := by decide
theorem witness_PcAdvanceSaturates : (254 : Byte) ≠ 255 ∧ (machineAt 0xFEFF 0 0 []).pc = pack 254 255 := by decide
theorem witness_CompareResult :
    regOperand (machineAt 0 0x05 0 []) .data = 0x05 ∧ (regOperand (machineAt 0 0x80 0 []) .data).toNat > (0x7F : Byte).toNat ∧
    (regOperand (machineAt 0 0x00 0 []) .data).toNat < (0xFF : Byte).toNat := by decide
theorem witness_SwapResult_loaded :
    (atOp 0x73).inv ∧ cpuPage (atOp 0x73) ∈ (atOp 0x73).memory.ids := by decide
theorem witness_SwapResult_unloaded : cpuPage State.reset ∉ State.reset.memory.ids := by decide
theorem witness_SwapCarriesThePlayer :
    (machineAt 0 0 0 []).player = .pos (xof 0xEEEE) (yof 0xEEEE) ∧
    ({ machineAt 0 0 0 [] with player := .reg .data } : State).player = .reg .data ∧
    (machineAt 0 0 0 []).player ≠ .pos (xof 0x0000) (yof 0x0000) ∧ (machineAt 0 0 0 []).player ≠ .reg .data := by decide
theorem witness_SwapExchangesEffectiveValues :
    (atOp 0x73).inv ∧ gate (atOp 0x73) = true ∧ cpuPage (atOp 0x73) ∈ (atOp 0x73).memory.ids ∧
    exec (.swap 0xEEEE) (atOp 0x73) = .next (result (.swap 0xEEEE) (atOp 0x73)) :=
  ⟨by decide, by decide, by decide, rfl⟩
theorem witness_SwapTwiceRestores :
    (atOp 0x73).inv ∧ gate (atOp 0x73) = true ∧ cpuPage (atOp 0x73) ∈ (atOp 0x73).memory.ids ∧
    exec (.swap 0xEEEE) (atOp 0x73) = .next (result (.swap 0xEEEE) (atOp 0x73)) ∧
    exec (.swap 0xEEEE) (result (.swap 0xEEEE) (atOp 0x73)) =
      .next (result (.swap 0xEEEE) (result (.swap 0xEEEE) (atOp 0x73))) :=
  ⟨by decide, by decide, by decide, rfl, rfl⟩
theorem witness_PageResult :
    (atOp 0x70).cfg.pageSwitchEnabled = true ∧
    ({ Config.atReset with pageSwitchEnabled := false } : Config).pageSwitchEnabled = false := by decide
theorem witness_PageUnderThePlayerClosesTheGate :
    (atOp 0x70).cfg.pageSwitchEnabled = true ∧ ({ atOp 0x70 with player := .reg .page } : State).player = .reg .page ∧
    (0xBF : Byte) &&& playerMask (atOp 0x70).cfg = 0 ∧
    exec (.page 0xBF) { atOp 0x70 with player := .reg .page } =
      .next (result (.page 0xBF) { atOp 0x70 with player := .reg .page }) :=
  ⟨by decide, rfl, by decide, rfl⟩
theorem witness_ResultsIgnoreThePlayer :
    (atOp 0x61).cfg.regOperandView = .stored ∧ (∀ target, Instr.add 2 ≠ .swap target) ∧
    exec (.add 2) (atOp 0x61) = .next (result (.add 2) (atOp 0x61)) :=
  ⟨by decide, fun _ h => Instr.noConfusion h, rfl⟩
theorem witness_CpuStepIsTotal_gate :
    ({ atOp 0x61 with activePage := 2 } : State).activePage ≠ regEff { atOp 0x61 with activePage := 2 } .page ∧
    (atOp 0x61).activePage = regEff (atOp 0x61) .page := by decide
theorem witness_CpuStepIsTotal_none :
    isNone (readInstruction (atOp 0x21) (regEff (atOp 0x21) .page) (atOp 0x21).pc) = true := by decide
theorem witness_StepRunsTheDecodedInstruction :
    (atOp 0x61).inputs = .makeMove .rotatePage :: [] ∧
    decode .xy (memReadEff (afterRotate (atOp 0x61)) (cpuPage (afterRotate (atOp 0x61))) (afterRotate (atOp 0x61)).pc)
      (operand (afterRotate (atOp 0x61)) (cpuPage (afterRotate (atOp 0x61))) (afterRotate (atOp 0x61)).pc 1)
      (operand (afterRotate (atOp 0x61)) (cpuPage (afterRotate (atOp 0x61))) (afterRotate (atOp 0x61)).pc 2) = .add 0x02 ∧
    (afterRotate (atOp 0x61)).cfg.addrOperandOrder = .xy ∧
    (afterRotate (atOp 0x61)).activePage = cpuPage (afterRotate (atOp 0x61)) := by decide
theorem witness_StepRunsTheDecodedInstruction_gate_closed :
    (afterRotate { atOp 0x61 with activePage := 2 }).activePage ≠ cpuPage (afterRotate { atOp 0x61 with activePage := 2 }) := by
  decide
theorem witness_StepsWithoutAnAction :
    State.reset.inputs = [] ∧
    ({ atOp 0x61 with inputs := [.visitedSet 255] } : State).inputs = .visitedSet 255 :: [] ∧
    ({ atOp 0x61 with inputs := [.visitedClear 0] } : State).inputs = .visitedClear 0 :: [] ∧
    ({ atOp 0x61 with inputs := [.patch 1 [⟨0xFFFF, 5, [6]⟩]] } : State).inputs = .patch 1 [⟨0xFFFF, 5, [6]⟩] :: [] ∧
    (atOp 0x61).memory.page? 1 ≠ none := by decide
theorem witness_PlacedInstructionRuns :
    State.reset.inv ∧ State.reset.cfg.addrOperandOrder = .xy ∧ decodeTableWord 24 0x730102 = some (.swap 0x0102) ∧
    (machineAt 0xFFFF 0 0 []).inv ∧ decodeTableWord 16 0x6105 = some (.add 0x05) := by decide
theorem witness_StepKeepsMemoryCanonical :
    (atOp 0x73).inv ∧ step (atOp 0x73) = .next (stepped (atOp 0x73)) := ⟨by decide, rfl⟩
theorem witness_ResetMeetsTheInvariant : Memory.wf LaunchArgs.atReset.pages := by decide
theorem witness_StepKeepsConstants : step (atOp 0x70) = .next (stepped (atOp 0x70)) := rfl
theorem witness_PageFlagSetOnlyByPage :
    step (atOp 0x70) = .next (stepped (atOp 0x70)) ∧ (atOp 0x70).pageInstrExecuted = false ∧
    (stepped (atOp 0x70)).pageInstrExecuted = true := ⟨rfl, by decide, by decide⟩
theorem witness_PageFlagSetOnlyByPage_kept : (stepped (atOp 0x70)).pageInstrExecuted = true := by decide
theorem witness_PageRegisterWrittenOnlyByPage :
    step (atOp 0x70) = .next (stepped (atOp 0x70)) ∧ (stepped (atOp 0x70)).reg .page ≠ (atOp 0x70).reg .page :=
  ⟨rfl, by decide⟩
theorem witness_DataAndCompareWriters :
    step (atOp 0x61) = .next (stepped (atOp 0x61)) ∧ (stepped (atOp 0x61)).reg .data ≠ (atOp 0x61).reg .data ∧
    step (atOp 0x63) = .next (stepped (atOp 0x63)) ∧ (stepped (atOp 0x63)).reg .compare ≠ (atOp 0x63).reg .compare :=
  ⟨rfl, by decide, rfl, by decide⟩
/-- The trigger machine under a rule that resets Data to 3 and Compare to 4. -/
def resetting : State :=
  { triggerMachine (.setProgramCounter 0x1010) with
    cfg := { Config.atReset with triggerResetsRegs := true, triggerResetData := 3, triggerResetCompare := 4 } }
theorem witness_DataAndCompareWriters_trigger :
    step resetting = .next (stepped resetting) ∧ (stepped resetting).reg .data ≠ resetting.reg .data ∧
    (stepped resetting).reg .compare ≠ resetting.reg .compare := ⟨rfl, by decide, by decide⟩
theorem witness_StoredBytesChangeOnlyBySwapOrPatch :
    (atOp 0x73).inv ∧ step (atOp 0x73) = .next (stepped (atOp 0x73)) ∧
    memRead (stepped (atOp 0x73)) 1 0x0203 ≠ memRead (atOp 0x73) 1 0x0203 := ⟨by decide, rfl, by decide⟩
theorem witness_EndOfLevelSetOnlyByTrigger :
    step (triggerMachine .endOfLevel) = .next (stepped (triggerMachine .endOfLevel)) ∧
    (triggerMachine .endOfLevel).endOfLevel = false ∧ (stepped (triggerMachine .endOfLevel)).endOfLevel = true :=
  ⟨rfl, by decide, by decide⟩
/-- The player stands on the cell that the Swap at 0x1000 names. -/
def swapUnder : State := { atOp 0x73 with player := .pos 2 3 }
theorem witness_PlayerChangesSidesOnlyBySwap_in :
    step swapUnder = .next (stepped swapUnder) ∧ swapUnder.player = .pos 2 3 ∧ (stepped swapUnder).player = .reg .data :=
  ⟨rfl, by decide, by decide⟩
theorem witness_PlayerChangesSidesOnlyBySwap_out :
    step { atOp 0x73 with player := .reg .data } = .next (stepped { atOp 0x73 with player := .reg .data }) ∧
    (stepped { atOp 0x73 with player := .reg .data }).player = .pos 2 3 := ⟨rfl, by decide⟩
theorem witness_BlockCandidate :
    (State.reset.cfg.wrapMode = .block ∧ State.reset.player = .pos 0 0 ∧ moveCandidate .block .up 0 0 = none) ∧
    moveCandidate .block .down 5 254 = some (5, 255) := by decide
theorem witness_WrapLineCandidate : moveCandidate .wrapLine .right 255 7 = some (0, 7) := by decide
theorem witness_WrapGridCandidate : moveCandidate .wrapGrid .down 255 255 = some (0, 0) := by decide
theorem witness_GridMoveResult :
    (machineAt 0 0 0 []).player = .pos 0xEE 0xEE ∧
    moveCandidate (machineAt 0 0 0 []).cfg.wrapMode .right 0xEE 0xEE = some (0xEF, 0xEE) ∧
    memRead (machineAt 0 0 0 [(0xEFEE, 0xBF)]) 1 (pack 0xEF 0xEE) &&& playerMask Config.atReset = 0 ∧
    memRead (machineAt 0 0 0 [(0xEFEE, 0x40)]) 1 (pack 0xEF 0xEE) &&& playerMask Config.atReset ≠ 0 := by decide
theorem witness_GridMoveResult_unloaded :
    State.reset.player = .pos 0 0 ∧ moveCandidate State.reset.cfg.wrapMode .right 0 0 = some (1, 0) ∧
    State.reset.activePage ∉ State.reset.memory.ids := by decide
theorem witness_RegisterMoveResult :
    ({ machineAt 0 0 0 [] with player := .reg .data } : State).player = .reg .data ∧
    (machineAt 0 0 0 []).reg .page &&& playerMask Config.atReset = 0 ∧
    (machineAt 0 0x50 0 []).reg .data &&& playerMask Config.atReset ≠ 0 := by decide
theorem witness_RotatePageFindsTheNextVisited :
    State.reset.player = .pos 0 0 ∧ State.reset.cfg.rotateRule = .always ∧
    (Bits256.set 0 2).get 1 = false ∧ (Bits256.set 0 2).get 2 = true := by decide
theorem witness_RotatePageFindsTheNextVisited_none_visited (j : Nat) : State.reset.visited.get (BitVec.ofNat 8 j) = false := by
  simp [Bits256.get, State.reset, State.launch, LaunchArgs.atReset]
theorem witness_RotatePageFindsTheNextVisited_forbidden :
    ({ Config.atReset with rotateRule := .afterPageInstruction } : Config).rotateRule = .afterPageInstruction ∧
    State.reset.pageInstrExecuted = false := by decide
theorem witness_TriggerEffects :
    ({ Config.atReset with triggerResetsRegs := true } : Config).triggerResetsRegs = true ∧
    State.reset.cfg.triggerResetsRegs = false ∧ ("win" : String) ≠ "WIN" := by decide
/-- One repeatable trigger at the last cell of page 1. -/
def repeatable : State := { machineAt 0 0 0 [] with memory := [⟨1, [], [⟨0xFFFF, .endOfLevel, false, true⟩]⟩] }
theorem witness_OneTimeTriggerFiresOnce :
    findTrigger (triggerTable (triggerMachine .endOfLevel) 1) 0x0100 = some ⟨0x0100, .endOfLevel, true, false⟩ ∧
    Trigger.isActive ⟨0x0100, .endOfLevel, true, false⟩ = true ∧
    findTrigger (triggerTable repeatable 1) 0xFFFF = some ⟨0xFFFF, .endOfLevel, false, true⟩ ∧
    Trigger.isActive ⟨0xFFFF, .endOfLevel, false, true⟩ = true := by decide
/-- Two pages with two triggers each. -/
def fourTriggers : State :=
  { machineAt 0 0 0 [] with
    memory := [⟨1, [], [⟨0, .endOfLevel, true, false⟩, ⟨1, .endOfLevel, true, false⟩]⟩,
      ⟨2, [], [⟨0, .endOfLevel, true, false⟩, ⟨1, .endOfLevel, true, false⟩]⟩] }
theorem witness_OneTimeTriggerFiresOnce_others :
    findTrigger (triggerTable fourTriggers 1) 0 = some ⟨0, .endOfLevel, true, false⟩ ∧ (2 : PageId) ≠ 1 ∧
    (triggerTable fourTriggers 1)[1]? = some ⟨1, .endOfLevel, true, false⟩ ∧ (1 : Addr) ≠ 0 := by decide
theorem test_trigger_marks_itself_alone :
    (fireAt 1 0 fourTriggers).memory.map (fun p => p.triggers.map Trigger.triggered) =
      [[true, false], [false, false]] := by decide
theorem witness_TriggersNeedALanding :
    (triggerMachine .endOfLevel).cfg.triggerOnBlockedMove = false ∧ (triggerMachine .endOfLevel).player = .pos 0 0 ∧
    (performAction (.move .right) (triggerMachine .endOfLevel)).1.player = .pos 1 0 ∧
    (performAction (.move .up) (triggerMachine .endOfLevel)).1.player = (triggerMachine .endOfLevel).player := by decide
/-- A player on the key of a trigger at the corner, which Block keeps there on a Move up or left. -/
def bumping : State :=
  { triggerMachine .endOfLevel with
    memory := [⟨1, [], [⟨0, .endOfLevel, false, false⟩]⟩], cfg := { Config.atReset with triggerOnBlockedMove := true, rotateRule := .never } }
theorem witness_TriggersNeedALanding_onBlockedMove :
    bumping.cfg.triggerOnBlockedMove = true ∧ bumping.player = .pos 0 0 ∧
    (performAction (.move .up) bumping).1.player = .pos 0 0 ∧
    (performAction (.move .right) bumping).1.player = .pos 1 0 ∧
    ({ bumping with player := .reg .data } : State).player = .reg .data := by decide
theorem test_trigger_on_blocked_move :
    (beforeCpuStep (.move .up) bumping).endOfLevel = true ∧ (beforeCpuStep .rotatePage bumping).endOfLevel = false ∧
    (beforeCpuStep (.move .up) { bumping with cfg := Config.atReset }).endOfLevel = false := by decide
theorem witness_InstructionRangeIsMaximal :
    isNone (readInstruction (atOp 0x61) 1 0x1000) = false ∧ isNone (readInstruction (atOp 0x61) 1 0x1001) = true := by decide
theorem witness_DiffRoundTrip : Grid.wf [(0, 1), (0xFFFF, 2)] ∧ Grid.wf [(7, 3)] := by decide
theorem witness_DiffShape : (0xFFFF : Nat) < 65536 ∧ Grid.read [] 0xFFFF ≠ Grid.read [(0xFFFF, 2)] 0xFFFF := by decide
theorem witness_PatchWritesItsHunks :
    Grid.wf [(7, 3)] ∧ (0xFFFE : Addr).toNat ≤ 65535 ∧ 65535 < Hunk.stop ⟨0xFFFE, 1, [2, 3, 4]⟩ ∧ 65533 < (0xFFFE : Addr).toNat := by
  decide
theorem witness_StreamPatchesIdentically :
    Hunk.stop ⟨0xFFFF, 5, []⟩ ≤ 65536 ∧ 65536 < Hunk.stop ⟨0xFFFF, 5, [6]⟩ := by decide
theorem witness_LeftoverBytesAreAFormatError :
    deserialize [0x10, 0x00, 0x00, 0xAA] = .ok [⟨0x0010, 0xAA, []⟩] ∧ 1 ≤ ([7, 7, 7] : List Byte).length ∧
    ([7, 7, 7] : List Byte).length ≤ 3 := by decide
theorem witness_StreamLength : serialize [⟨0xFFFF, 5, []⟩] = .ok [0xFF, 0xFF, 0x00, 5] := by decide

end Sys2Proof.Tests
end

section
/-! Dual addressing, 20_memory.md R54 and R55: the neighbours of a cell in linear order. -/

namespace Sys2Proof.Machine

theorem toNat_pack (x y : Byte) : (pack x y).toNat = x.toNat * 256 + y.toNat := by
  rw [pack, BitVec.toNat_ofNat]
  exact Nat.mod_eq_of_lt (by omega)

theorem pack_add_one_of_row_ne_last (x : Byte) {y : Byte} (hy : y ≠ 255) : pack x y + 1 = pack x (y + 1) := by
  apply BitVec.eq_of_toNat_eq
  have hrow : (y + 1).toNat = y.toNat + 1 := by bv_omega
  rw [BitVec.toNat_add, toNat_pack, toNat_pack, hrow]
  simp only [BitVec.reduceToNat]
  omega

/-- The carry out of the last row; at column 255 it wraps from 0xFFFF to 0x0000. -/
theorem pack_last_row_add_one (x : Byte) : pack x 255 + 1 = pack (x + 1) 0 := by
  apply BitVec.eq_of_toNat_eq
  simp only [BitVec.toNat_add, toNat_pack, BitVec.reduceToNat]
  omega

/-- One column right never touches the row: the carry out of column 255 is lost. -/
theorem pack_add_column (x y : Byte) : pack x y + 0x100 = pack (x + 1) y := by
  apply BitVec.eq_of_toNat_eq
  simp only [BitVec.toNat_add, toNat_pack, BitVec.reduceToNat]
  omega

/-! Each step backwards undoes a step forwards from the cell before. -/

theorem pack_sub_one_of_row_ne_zero (x : Byte) {y : Byte} (hy : y ≠ 0) : pack x y - 1 = pack x (y - 1) := by
  have hrow : y - 1 ≠ 255 := by bv_omega
  rw [BitVec.sub_eq_iff_eq_add, pack_add_one_of_row_ne_last x hrow, BitVec.sub_add_cancel]

theorem pack_first_row_sub_one (x : Byte) : pack x 0 - 1 = pack (x - 1) 255 := by
  rw [BitVec.sub_eq_iff_eq_add, pack_last_row_add_one (x - 1), BitVec.sub_add_cancel]

theorem pack_sub_column (x y : Byte) : pack x y - 0x100 = pack (x - 1) y := by
  rw [BitVec.sub_eq_iff_eq_add, pack_add_column (x - 1) y, BitVec.sub_add_cancel]

/-- Linear order is column-major: lexicographic in column, then row. -/
theorem pack_toNat_lt_iff (x y x' y' : Byte) :
    (pack x y).toNat < (pack x' y').toNat ↔ x.toNat < x'.toNat ∨ (x = x' ∧ y.toNat < y'.toNat) := by
  rw [toNat_pack, toNat_pack, ← BitVec.toNat_inj]
  omega

end Sys2Proof.Machine

namespace Sys2Proof.Proofs

open Machine

/-- Settles O10: the three neighbours forwards, each undone by its neighbour backwards, and the order of the packed pair. -/
theorem linearNeighbours : Obligations.LinearNeighbours := fun x y =>
  ⟨pack_add_one_of_row_ne_last x, pack_last_row_add_one x, pack_sub_one_of_row_ne_zero x, pack_first_row_sub_one x,
    pack_add_column x y, pack_sub_column x y, pack_toNat_lt_iff x y⟩

end Sys2Proof.Proofs
end

section
/-! The overlay, 21_overlay.md R81, R82 and R84: where a location reads with the mask, and that only the player's does. -/

namespace Sys2Proof.Machine

theorem memReadEff_of_player {s : State} {pg : PageId} {a : Addr} (hplayer : s.player = .pos (xof a) (yof a))
    (hpage : s.activePage = pg) : memReadEff s pg a = memRead s pg a ||| playerMask s.cfg := by
  obtain ⟨_, _, hread⟩ | ⟨haway, _⟩ := memReadEff_cases s pg a
  · exact hread
  · exact absurd ⟨hplayer, hpage⟩ haway

/-- A cell that does not read as stored is the player's. -/
theorem player_of_memReadEff_ne {s : State} {pg : PageId} {a : Addr} (hne : memReadEff s pg a ≠ memRead s pg a) :
    s.player = .pos (xof a) (yof a) ∧ s.activePage = pg := by
  obtain ⟨hplayer, hpage, _⟩ | ⟨_, hstored⟩ := memReadEff_cases s pg a
  · exact ⟨hplayer, hpage⟩
  · exact absurd hstored hne

theorem memReadEff_of_player_ne {s : State} {pg : PageId} {a : Addr} (haway : s.player ≠ .pos (xof a) (yof a)) :
    memReadEff s pg a = memRead s pg a :=
  not_not.mp fun hne => haway (player_of_memReadEff_ne hne).1

theorem regEff_of_player {s : State} {r : RegId} (hplayer : s.player = .reg r) :
    regEff s r = s.reg r ||| playerMask s.cfg := by
  obtain ⟨_, hread⟩ | ⟨haway, _⟩ := regEff_cases s r
  · exact hread
  · exact absurd hplayer haway

/-- A register that does not read as stored is the player's. -/
theorem player_of_regEff_ne {s : State} {r : RegId} (hne : regEff s r ≠ s.reg r) : s.player = .reg r := by
  obtain ⟨hplayer, _⟩ | ⟨_, hstored⟩ := regEff_cases s r
  · exact hplayer
  · exact absurd hstored hne

theorem regEff_of_player_ne {s : State} {r : RegId} (haway : s.player ≠ .reg r) : regEff s r = s.reg r :=
  not_not.mp fun hne => haway (player_of_regEff_ne hne)

/-- An address is determined by its column and row. -/
theorem addr_eq_of_xof_yof {a a' : Addr} (hx : xof a = xof a') (hy : yof a = yof a') : a = a' := by
  rw [← pack_xof_yof a, hx, hy, pack_xof_yof]

/-! Two overlaid locations are the same: both are the player's. -/

theorem overlaid_cell_unique {s : State} {pg pg' : PageId} {a a' : Addr} (hne : memReadEff s pg a ≠ memRead s pg a)
    (hne' : memReadEff s pg' a' ≠ memRead s pg' a') : pg = pg' ∧ a = a' := by
  obtain ⟨hplayer, hpage⟩ := player_of_memReadEff_ne hne
  obtain ⟨hplayer', hpage'⟩ := player_of_memReadEff_ne hne'
  have hsame := hplayer.symm.trans hplayer'
  injection hsame with hx hy
  exact ⟨hpage.symm.trans hpage', addr_eq_of_xof_yof hx hy⟩

theorem overlaid_register_unique {s : State} {r r' : RegId} (hne : regEff s r ≠ s.reg r)
    (hne' : regEff s r' ≠ s.reg r') : r = r' := by
  have hsame := (player_of_regEff_ne hne).symm.trans (player_of_regEff_ne hne')
  injection hsame

theorem memReadEff_of_overlaid_register {s : State} {r : RegId} (hne : regEff s r ≠ s.reg r) (pg : PageId) (a : Addr) :
    memReadEff s pg a = memRead s pg a :=
  memReadEff_of_player_ne (by simp [player_of_regEff_ne hne])

/-! The same on the player's page, by column and row. -/

theorem effectiveValue_of_player {s : State} {x y : Byte} (hplayer : s.player = .pos x y) :
    effectiveValue s s.activePage x y = memRead s s.activePage (pack x y) ||| playerMask s.cfg :=
  memReadEff_of_player (by rw [hplayer, xof_pack, yof_pack]) rfl

theorem effectiveValue_of_player_ne {s : State} {x y : Byte} (pg : PageId) (haway : s.player ≠ .pos x y) :
    effectiveValue s pg x y = memRead s pg (pack x y) :=
  memReadEff_of_player_ne (by rwa [xof_pack, yof_pack])

end Sys2Proof.Machine

namespace Sys2Proof.Proofs

open Machine

/-- Settles O15: a location that does not read as stored is the player's, and the player is at one place. -/
theorem onlyOneLocationIsOverlaid : Obligations.OnlyOneLocationIsOverlaid := by
  intro s
  refine ⟨fun _ _ _ _ => overlaid_cell_unique, fun _ _ => overlaid_register_unique,
    fun _ pg a hne => memReadEff_of_overlaid_register hne pg a, fun x y hplayer => ⟨effectiveValue_of_player hplayer, ?_⟩⟩
  intro x' y' hother
  have haway : s.player ≠ .pos x' y' := by
    intro hthere
    rw [hplayer] at hthere
    injection hthere with hx hy
    exact hother (by rw [hx, hy])
  exact effectiveValue_of_player_ne s.activePage haway

/-- Settles O14: the two cases of a register's effective value. -/
theorem effectiveRegisterValue : Obligations.EffectiveRegisterValue := fun _ _ =>
  ⟨regEff_of_player, regEff_of_player_ne⟩

end Sys2Proof.Proofs
end

section
/-! The CPU's step, 40_cpu_step.md R110, R114 and R116: what the gate decides, and that every instruction and every
host input has a next state. -/

namespace Sys2Proof.Machine

theorem gate_eq_true_iff (s : State) : gate s = true ↔ s.activePage = cpuPage s := by
  rw [gate, beq_iff_eq]

theorem cpuStep_of_gate_open {s : State} (hpage : s.activePage = cpuPage s) : cpuStep s = exec (fetched s) s :=
  if_pos ((gate_eq_true_iff s).2 hpage)

theorem cpuStep_of_gate_closed {s : State} (hpage : s.activePage ≠ cpuPage s) : cpuStep s = .next s :=
  if_neg fun hgate => hpage ((gate_eq_true_iff s).1 hgate)

/-- No instruction faults and none is refused. -/
theorem exec_continues (i : Instr) (s : State) : Continues (exec i s) := by
  cases i with
  | add v => exact ⟨_, rfl⟩
  | compare v => exact ⟨_, rfl⟩
  | jumpEqual target => exact ⟨_, rfl⟩
  | jumpGreater target => exact ⟨_, rfl⟩
  | jump target => exact ⟨_, rfl⟩
  | jumpLess target => exact ⟨_, rfl⟩
  | page v => exact ⟨_, rfl⟩
  | swap target => exact ⟨_, rfl⟩
  | noneOp op => exact ⟨_, rfl⟩

theorem isNone_eq_true_iff (i : Instr) : isNone i = true ↔ ∃ op, i = .noneOp op := by
  cases i <;> simp [isNone]

theorem exec_of_isNone {i : Instr} (hnone : isNone i = true) (s : State) : exec i s = .next s := by
  obtain ⟨op, rfl⟩ := (isNone_eq_true_iff i).1 hnone
  rfl

/-- A fetched None changes nothing on either side of the gate. -/
theorem cpuStep_of_fetched_isNone {s : State} (hnone : isNone (fetched s) = true) : cpuStep s = .next s := by
  by_cases hpage : s.activePage = cpuPage s
  · rw [cpuStep_of_gate_open hpage, exec_of_isNone hnone]
  · exact cpuStep_of_gate_closed hpage

theorem cpuStep_continues (s : State) : Continues (cpuStep s) := by
  by_cases hpage : s.activePage = cpuPage s
  · rw [cpuStep_of_gate_open hpage]
    exact exec_continues (fetched s) s
  · exact ⟨s, cpuStep_of_gate_closed hpage⟩

theorem hostInput_continues (h : HostInput) (s : State) : Continues (hostInput h s) := by
  cases h with
  | makeMove a => exact cpuStep_continues (beforeCpuStep a s)
  | patch pg d => exact ⟨_, rfl⟩
  | visitedSet pg => exact ⟨_, rfl⟩
  | visitedClear pg => exact ⟨_, rfl⟩

theorem step_of_inputs_nil {s : State} (hnone : s.inputs = []) : step s = .next s := by
  simp only [step, transition, hnone]

theorem step_of_inputs_cons {s : State} {h : HostInput} {rest : List HostInput} (hnext : s.inputs = h :: rest) :
    step s = hostInput h { s with inputs := rest } := by
  simp only [step, transition, hnext]

theorem step_continues (s : State) : Continues (step s) := by
  cases hinputs : s.inputs with
  | nil => exact ⟨s, step_of_inputs_nil hinputs⟩
  | cons h rest =>
    rw [step_of_inputs_cons hinputs]
    exact hostInput_continues h { s with inputs := rest }

end Sys2Proof.Machine

namespace Sys2Proof.Proofs

open Machine

/-- Settles O29: every instruction and every host input has a next state, and the gate decides what the CPU's step is. -/
theorem cpuStepIsTotal : Obligations.CpuStepIsTotal :=
  ⟨fun s => ⟨cpuStep_continues s, step_continues s⟩, fun _ => cpuStep_of_gate_closed,
    fun _ => cpuStep_of_fetched_isNone, fun _ => cpuStep_of_gate_open⟩

end Sys2Proof.Proofs
end

section
/-! Applying a diff, 50_diff_codec.md R175 and R176: what a run of bytes writes, and what it leaves. -/

namespace Sys2Proof.Machine

/-- The addresses of a hunk (R170, R173). -/
def Hunk.Contains (h : Hunk) (a : Nat) : Prop := h.start.toNat ≤ a ∧ a < h.stop

theorem Hunk.not_contains_iff (h : Hunk) (a : Nat) : ¬h.Contains a ↔ a < h.start.toNat ∨ h.stop ≤ a := by
  rw [Hunk.Contains]
  omega

theorem patchBytes_append (g : Grid) (a : Nat) (bs cs : List Byte) :
    patchBytes g a (bs ++ cs) = patchBytes (patchBytes g a bs) (a + bs.length) cs := by
  induction bs generalizing g a with
  | nil => rfl
  | cons b bs ih =>
    simp only [List.cons_append, patchBytes, ih, List.length_cons]
    congr 1
    omega

theorem patchBytes_take_drop (g : Grid) (a : Nat) {bs : List Byte} {n : Nat} (hn : n ≤ bs.length) :
    patchBytes g a bs = patchBytes (patchBytes g a (bs.take n)) (a + n) (bs.drop n) := by
  have happend := patchBytes_append g a (bs.take n) (bs.drop n)
  rwa [List.take_append_drop, List.length_take_of_le hn] at happend

theorem read_patchBytes_outside (g : Grid) {a x : Nat} {bs : List Byte} (hout : x < a ∨ a + bs.length ≤ x) :
    (patchBytes g a bs).read x = g.read x := by
  induction bs generalizing g a with
  | nil => rfl
  | cons b bs ih =>
    rw [List.length_cons] at hout
    rw [patchBytes, ih _ (by omega)]
    split
    · exact Grid.read_write_other g b (by omega)
    · rfl

theorem read_patchBytes_inside {g : Grid} (hg : Grid.wf g) {a i : Nat} {bs : List Byte} {b : Byte}
    (hb : bs[i]? = some b) (hin : a + i < 65536) : (patchBytes g a bs).read (a + i) = b := by
  induction bs generalizing g a i with
  | nil => simp at hb
  | cons c bs ih =>
    rw [patchBytes, if_pos (by omega)]
    cases i with
    | zero =>
      have hc : c = b := by simpa using hb
      rw [read_patchBytes_outside _ (by omega), hc]
      exact Grid.read_write_same a b hg
    | succ i =>
      have hnext : (patchBytes (g.write a c) (a + 1) bs).read (a + 1 + i) = b :=
        ih (Grid.wf_write c (by omega) hg) (by simpa using hb) (by omega)
      rwa [Nat.add_assoc, Nat.add_comm 1 i] at hnext

/-- The hunk's own byte at each of its addresses that the grid has. -/
theorem bytes_getElem?_of_contains {g : Grid} (hg : Grid.wf g) {h : Hunk} {a : Nat} (ha : a < 65536)
    (hin : h.Contains a) : h.bytes[a - h.start.toNat]? = some ((patchHunk g h).read a) := by
  obtain ⟨hstart, hstop⟩ := hin
  rw [Hunk.stop] at hstop
  have hb := List.getElem?_eq_getElem (l := h.bytes) (i := a - h.start.toNat) (by omega)
  have hread := read_patchBytes_inside hg (a := h.start.toNat) hb (by omega)
  rw [Nat.add_sub_cancel' hstart] at hread
  rw [hb, patchHunk, hread]

theorem read_patchHunk_of_not_contains (g : Grid) {h : Hunk} {a : Nat} (hout : ¬h.Contains a) :
    (patchHunk g h).read a = g.read a :=
  read_patchBytes_outside g ((h.not_contains_iff a).1 hout)

theorem patch_append (g : Grid) (d e : List Hunk) : patch g (d ++ e) = patch (patch g d) e := List.foldl_append

end Sys2Proof.Machine

namespace Sys2Proof.Proofs

open Machine

/-- Settles O56: one hunk is one run of bytes, and a diff is its hunks applied in order. -/
theorem patchWritesItsHunks : Obligations.PatchWritesItsHunks :=
  ⟨fun g h a hg ha =>
    ⟨fun hstart hstop => bytes_getElem?_of_contains hg ha ⟨hstart, hstop⟩,
      fun hout => read_patchHunk_of_not_contains g ((h.not_contains_iff a).2 hout)⟩,
    fun _ h hg => patch_wf [h] hg, patch_append, fun _ => rfl⟩

end Sys2Proof.Proofs
end

section
/-! The scan, 50_diff_codec.md R172: what the hunks found below an address are, kept by every address of the scan, and
what such hunks write. -/

namespace Sys2Proof.Machine

@[simp] theorem readRun_length (g : Grid) (a n : Nat) : (readRun g a n).length = n := by simp [readRun]

theorem readRun_getElem? (g : Grid) {a n i : Nat} (hi : i < n) : (readRun g a n)[i]? = some (g.read (a + i)) := by
  simp [readRun, hi]

theorem readRun_add (g : Grid) (a m n : Nat) : readRun g a (m + n) = readRun g a m ++ readRun g (a + m) n := by
  simp only [readRun, List.range_add, List.map_append, List.map_map, Function.comp_def, Nat.add_assoc]

/-- The hunk's bytes are the grid's at the hunk's addresses (R174). -/
def Hunk.CopiedFrom (after : Grid) (h : Hunk) : Prop := h.bytes = readRun after h.start.toNat h.bytes.length

theorem Hunk.begin_start {a : Nat} (after : Grid) (ha : a < 65536) : (Hunk.begin after a).start.toNat = a :=
  Nat.mod_eq_of_lt ha

theorem Hunk.begin_stop {a : Nat} (after : Grid) (ha : a < 65536) : (Hunk.begin after a).stop = a + 1 := by
  rw [Hunk.stop, Hunk.begin_start after ha, Hunk.begin_bytes, List.length_singleton]

theorem Hunk.begin_copiedFrom {a : Nat} (after : Grid) (ha : a < 65536) :
    (Hunk.begin after a).CopiedFrom after := by
  rw [Hunk.CopiedFrom, Hunk.begin_start after ha]
  simp [readRun]

/-- Filling the gap brings the hunk's end past the differing address. -/
theorem Hunk.extend_stop {h : Hunk} {a : Nat} (after : Grid) (ha : h.stop ≤ a) : (h.extend after a).stop = a + 1 := by
  rw [Hunk.stop] at ha
  rw [Hunk.stop, Hunk.extend_start, Hunk.extend_bytes]
  simp only [List.length_append, readRun_length, List.length_singleton, Hunk.stop]
  omega

theorem Hunk.extend_copiedFrom {h : Hunk} {after : Grid} (hcopied : h.CopiedFrom after) {a : Nat} (ha : h.stop ≤ a) :
    (h.extend after a).CopiedFrom after := by
  have hlen : (h.extend after a).bytes.length = h.bytes.length + (a - h.stop) + 1 := by
    simp [Hunk.extend_bytes, Nat.add_assoc]
  have hlast : readRun after a 1 = [after.read a] := by simp [readRun]
  have hgap : h.start.toNat + h.bytes.length = h.stop := rfl
  have hend : h.start.toNat + (h.bytes.length + (a - h.stop)) = a := by omega
  rw [Hunk.CopiedFrom, hlen, Hunk.extend_start, readRun_add, readRun_add, ← hcopied, hgap, hend, hlast, Hunk.extend_bytes]

/-- Everything one address of the scan can do to the hunks found so far: an equal byte leaves them; a differing one adds
a hunk or extends the last. -/
theorem finish_diffStep_cases (gap : Nat) (before after : Grid) (a : Nat) (st : DiffState) :
    (before.read a = after.read a ∧ (diffStep gap before after a st).finish = st.finish) ∨
    (diffStep gap before after a st).finish = st.finish ++ [Hunk.begin after a] ∨
    ∃ hs h, st.finish = hs ++ [h] ∧ (diffStep gap before after a st).finish = hs ++ [h.extend after a] := by
  rcases diffStep_cases gap before after a st with ⟨heq, h⟩ | ⟨-, hcur, h⟩ | ⟨k, -, hcur, ⟨-, h⟩ | ⟨-, h⟩⟩ <;> rw [h]
  · exact Or.inl ⟨heq, rfl⟩
  · exact Or.inr (Or.inl (by simp [DiffState.finish, hcur]))
  · exact Or.inr (Or.inr ⟨st.hunks, k, by simp [DiffState.finish, hcur], rfl⟩)
  · exact Or.inr (Or.inl (by simp [DiffState.finish, hcur]))

/-- The hunks lie below address `n`, copy `after`, and hold every address below `n` at which the grids differ: the
invariant of the scan. -/
structure DescribesBelow (before after : Grid) (n : Nat) (d : List Hunk) : Prop where
  copied : ∀ h ∈ d, h.CopiedFrom after
  stop_le : ∀ h ∈ d, h.stop ≤ n
  covers : ∀ a < n, before.read a ≠ after.read a → ∃ h ∈ d, h.Contains a

theorem DescribesBelow.zero (before after : Grid) : DescribesBelow before after 0 [] where
  copied := by simp
  stop_le := by simp
  covers := by simp

namespace DescribesBelow

variable {before after : Grid} {a : Nat} {d : List Hunk}

theorem skip (hd : DescribesBelow before after a d) (heq : before.read a = after.read a) :
    DescribesBelow before after (a + 1) d where
  copied := hd.copied
  stop_le h hh := Nat.le_succ_of_le (hd.stop_le h hh)
  covers x hx hne := by
    rcases Nat.lt_succ_iff_lt_or_eq.1 hx with hx | rfl
    · exact hd.covers x hx hne
    · exact absurd heq hne

/-- A hunk that ends just after `a` may follow hunks with which it holds every differing address below `a`. -/
theorem snoc {k : Hunk} (hcopied : ∀ h ∈ d, h.CopiedFrom after) (hstop : ∀ h ∈ d, h.stop ≤ a)
    (hcovers : ∀ x < a, before.read x ≠ after.read x → (∃ h ∈ d, h.Contains x) ∨ k.Contains x)
    (hk : k.CopiedFrom after) (hkstart : k.start.toNat ≤ a) (hkstop : k.stop = a + 1) :
    DescribesBelow before after (a + 1) (d ++ [k]) where
  copied := by simpa [or_imp, forall_and] using ⟨hcopied, hk⟩
  stop_le h hh := by
    rcases List.mem_append.1 hh with hh | hh
    · exact Nat.le_succ_of_le (hstop h hh)
    · rw [List.mem_singleton.1 hh, hkstop]
  covers x hx hne := by
    have hlast : k.Contains x → ∃ h ∈ d ++ [k], h.Contains x := fun hc => ⟨k, by simp, hc⟩
    rcases Nat.lt_succ_iff_lt_or_eq.1 hx with hx | rfl
    · rcases hcovers x hx hne with ⟨h, hh, hc⟩ | hc
      · exact ⟨h, List.mem_append_left _ hh, hc⟩
      · exact hlast hc
    · exact hlast ⟨hkstart, by omega⟩

theorem add_begin (hd : DescribesBelow before after a d) (ha : a < 65536) :
    DescribesBelow before after (a + 1) (d ++ [Hunk.begin after a]) :=
  snoc hd.copied hd.stop_le (fun x hx hne => Or.inl (hd.covers x hx hne)) (Hunk.begin_copiedFrom after ha)
    (Hunk.begin_start after ha).le (Hunk.begin_stop after ha)

theorem extend_last {h : Hunk} (hd : DescribesBelow before after a (d ++ [h])) :
    DescribesBelow before after (a + 1) (d ++ [h.extend after a]) := by
  have hmem : h ∈ d ++ [h] := by simp
  have hstop := hd.stop_le h hmem
  have hstart : h.start.toNat ≤ h.stop := Nat.le_add_right _ _
  refine snoc (fun k hk => hd.copied k (List.mem_append_left _ hk))
    (fun k hk => hd.stop_le k (List.mem_append_left _ hk)) (fun x hx hne => ?_)
    (Hunk.extend_copiedFrom (hd.copied h hmem) hstop) (hstart.trans hstop) (Hunk.extend_stop after hstop)
  obtain ⟨k, hk, hc⟩ := hd.covers x hx hne
  rcases List.mem_append.1 hk with hk | hk
  · exact Or.inl ⟨k, hk, hc⟩
  · obtain rfl := List.mem_singleton.1 hk
    exact Or.inr ⟨hc.1, by rw [Hunk.extend_stop after hstop]; omega⟩

theorem of_diffStep {st : DiffState} (gap : Nat) (ha : a < 65536) (hd : DescribesBelow before after a st.finish) :
    DescribesBelow before after (a + 1) (diffStep gap before after a st).finish := by
  rcases finish_diffStep_cases gap before after a st with ⟨heq, h⟩ | h | ⟨hs, k, hlast, h⟩ <;> rw [h]
  · exact hd.skip heq
  · exact hd.add_begin ha
  · exact extend_last (hlast ▸ hd)

theorem of_diffScan {st : DiffState} (gap n : Nat) (hn : a + n ≤ 65536) (hd : DescribesBelow before after a st.finish) :
    DescribesBelow before after (a + n) (diffScan gap before after n a st).finish := by
  induction n generalizing a st with
  | zero => exact hd
  | succ n ih =>
    rw [diffScan, Nat.add_comm n 1, ← Nat.add_assoc]
    exact ih (by omega) (hd.of_diffStep gap (by omega))

end DescribesBelow

theorem diff_describes (c : Config) (before after : Grid) :
    DescribesBelow before after 65536 (diff c before after) := by
  have h := (DescribesBelow.zero before after).of_diffScan (st := ⟨[], none⟩) c.diffMergeGap 65536 le_rfl
  rwa [Nat.zero_add] at h

theorem diffScan_self (gap : Nat) (g : Grid) (n a : Nat) (st : DiffState) : diffScan gap g g n a st = st := by
  induction n generalizing a with
  | zero => rfl
  | succ n ih => rw [diffScan, diffStep, if_pos rfl, ih]

theorem diff_self (c : Config) (g : Grid) : diff c g g = [] := by
  rw [diff, diffPrefix, diffScan_self]
  rfl

theorem read_patchHunk_of_copiedFrom {g after : Grid} (hg : Grid.wf g) {h : Hunk} (hcopied : h.CopiedFrom after) {a : Nat}
    (ha : a < 65536) (hread : h.Contains a ∨ g.read a = after.read a) : (patchHunk g h).read a = after.read a := by
  by_cases hin : h.Contains a
  · have hb := bytes_getElem?_of_contains hg ha hin
    obtain ⟨hstart, hstop⟩ := hin
    rw [Hunk.stop] at hstop
    rw [hcopied, readRun_getElem? after (by omega), Nat.add_sub_cancel' hstart] at hb
    exact (Option.some.inj hb).symm
  · rw [read_patchHunk_of_not_contains g hin]
    exact hread.resolve_left hin

/-- Hunks that copy `after` bring an address to its byte there, wherever one holds it or the grid agrees already. -/
theorem read_patch_of_copiedFrom {g after : Grid} (hg : Grid.wf g) {d : List Hunk}
    (hcopied : ∀ h ∈ d, h.CopiedFrom after) {a : Nat} (ha : a < 65536)
    (hread : (∃ h ∈ d, h.Contains a) ∨ g.read a = after.read a) : (patch g d).read a = after.read a := by
  induction d generalizing g with
  | nil => exact hread.resolve_left (by simp)
  | cons k d ih =>
    refine ih (patch_wf [k] hg) (fun h hh => hcopied h (List.mem_cons_of_mem _ hh)) ?_
    have hk := read_patchHunk_of_copiedFrom hg (hcopied k List.mem_cons_self) ha
    rcases hread with ⟨h, hh, hin⟩ | heq
    · rcases List.mem_cons.1 hh with rfl | hh
      · exact Or.inr (hk (Or.inl hin))
      · exact Or.inl ⟨h, hh, hin⟩
    · exact Or.inr (hk (Or.inr heq))

theorem DescribesBelow.patch_eq {before after : Grid} {d : List Hunk} (hd : DescribesBelow before after 65536 d)
    (hbefore : Grid.wf before) (hafter : Grid.wf after) : patch before d = after := by
  refine Grid.ext_of_read (patch_wf d hbefore) hafter fun a ha => ?_
  refine read_patch_of_copiedFrom hbefore hd.copied ha ?_
  by_cases heq : before.read a = after.read a
  · exact Or.inr heq
  · exact Or.inl (hd.covers a ha heq)

end Sys2Proof.Machine
end

section
/-! The byte stream, 50_diff_codec.md R177 to R183: whole records read back as their hunks, and the serializer writes
whole records that patch as the diff does. -/

namespace Sys2Proof.Machine

/-- The record of a hunk of at most 256 bytes (R178). -/
def Hunk.record (h : Hunk) : List Byte := recordBytes h.start.toNat h.bytes

@[simp] theorem Hunk.record_length (h : Hunk) : h.record.length = h.bytes.length + 3 := rfl

/-- The two address bytes of a record give the start back (R178). -/
theorem pack_start_bytes (a : Addr) : pack (BitVec.ofNat 8 (a.toNat / 256)) (BitVec.ofNat 8 a.toNat) = a := pack_xof_yof a

theorem readRecords_nil (n : Nat) : readRecords n [] = .ok [] := by cases n <;> rfl

theorem readRecords_record {h : Hunk} (hlen : h.bytes.length ≤ 256) {n : Nat} {t : List Byte} {d : List Hunk}
    (ht : readRecords n t = .ok d) : readRecords (n + 1) (h.record ++ t) = .ok (h :: d) := by
  obtain ⟨start, first, rest⟩ := h
  rw [Hunk.bytes_length] at hlen
  have hm : (BitVec.ofNat 8 ((first :: rest).length - 1)).toNat = rest.length :=
    Nat.mod_eq_of_lt (Nat.lt_of_succ_le hlen)
  simp only [Hunk.record, recordBytes, Hunk.bytes, List.cons_append, readRecords, hm, List.take_left, List.drop_left, ht,
    pack_start_bytes]
  rw [if_pos (by simp)]

theorem readRecords_flatMap_record {d : List Hunk} (hlen : ∀ h ∈ d, h.bytes.length ≤ 256) {n : Nat}
    (hn : (d.flatMap Hunk.record).length ≤ n) : readRecords n (d.flatMap Hunk.record) = .ok d := by
  induction d generalizing n with
  | nil => exact readRecords_nil n
  | cons h d ih =>
    rw [List.flatMap_cons, List.length_append, Hunk.record_length] at hn
    obtain ⟨m, rfl⟩ : ∃ m, n = m + 1 := ⟨n - 1, by omega⟩
    rw [List.flatMap_cons]
    exact readRecords_record (hlen h List.mem_cons_self)
      (ih (fun k hk => hlen k (List.mem_cons_of_mem _ hk)) (by omega))

/-- The stream is whole records, and their hunks do to every grid what `f` does. -/
def RecordsPatchAs (stream : List Byte) (f : Grid → Grid) : Prop :=
  ∃ e : List Hunk, stream = e.flatMap Hunk.record ∧ (∀ h ∈ e, h.bytes.length ≤ 256) ∧ ∀ g, patch g e = f g

theorem RecordsPatchAs.nil : RecordsPatchAs [] id := ⟨[], rfl, by simp, fun _ => rfl⟩

theorem RecordsPatchAs.append {s t : List Byte} {f k : Grid → Grid} (hs : RecordsPatchAs s f) (ht : RecordsPatchAs t k) :
    RecordsPatchAs (s ++ t) (k ∘ f) := by
  obtain ⟨d, rfl, hdlen, hdpatch⟩ := hs
  obtain ⟨e, rfl, helen, hepatch⟩ := ht
  refine ⟨d ++ e, List.flatMap_append.symm, fun h hh => ?_, fun g => ?_⟩
  · exact (List.mem_append.1 hh).elim (hdlen h) (helen h)
  · rw [patch_append, hdpatch, hepatch, Function.comp_apply]

theorem RecordsPatchAs.deserialize {stream : List Byte} {f : Grid → Grid} (h : RecordsPatchAs stream f) :
    ∃ e, deserialize stream = .ok e ∧ ∀ g, patch g e = f g := by
  obtain ⟨e, rfl, hlen, hpatch⟩ := h
  exact ⟨e, readRecords_flatMap_record hlen le_rfl, hpatch⟩

theorem recordBytes_patchAs {s : Nat} (hs : s < 65536) {bs : List Byte} (hne : bs ≠ []) (hlen : bs.length ≤ 256) :
    RecordsPatchAs (recordBytes s bs) (patchBytes · s bs) := by
  obtain ⟨b, bs, rfl⟩ := List.exists_cons_of_ne_nil hne
  have hstart : (BitVec.ofNat 16 s).toNat = s := Nat.mod_eq_of_lt hs
  refine ⟨[⟨BitVec.ofNat 16 s, b, bs⟩], ?_, by simpa using hlen, fun g => ?_⟩
  · rw [List.flatMap_singleton, Hunk.record, hstart, Hunk.bytes]
  · rw [patch, List.foldl_cons, List.foldl_nil, patchHunk, hstart, Hunk.bytes]

theorem chunkRecords_of_length_le {bs : List Byte} (hne : bs ≠ []) (hlen : bs.length ≤ 256) (n s : Nat) :
    chunkRecords (n + 1) s bs = recordBytes s bs := by
  obtain ⟨b, bs, rfl⟩ := List.exists_cons_of_ne_nil hne
  rw [chunkRecords, List.take_of_length_le hlen, List.drop_of_length_le hlen]
  cases n <;> exact List.append_nil _

/-- Cutting a run into records of 256 bytes keeps what it writes (R179). -/
theorem chunkRecords_patchAs {n s : Nat} {bs : List Byte} (hn : bs.length ≤ n) (hs : s + bs.length ≤ 65536) :
    RecordsPatchAs (chunkRecords n s bs) (patchBytes · s bs) := by
  induction n generalizing s bs with
  | zero =>
    obtain rfl := List.length_eq_zero_iff.1 (Nat.le_zero.1 hn)
    exact RecordsPatchAs.nil
  | succ n ih =>
    rcases bs with _ | ⟨b, bs⟩
    · exact RecordsPatchAs.nil
    · by_cases hlen : (b :: bs).length ≤ 256
      · rw [chunkRecords_of_length_le (List.cons_ne_nil b bs) hlen]
        exact recordBytes_patchAs (by simp at hs; omega) (List.cons_ne_nil b bs) hlen
      · have htake : ((b :: bs).take 256).length = 256 := List.length_take_of_le (by omega)
        have hdrop : ((b :: bs).drop 256).length = (b :: bs).length - 256 := List.length_drop
        have hfirst : RecordsPatchAs (recordBytes s ((b :: bs).take 256)) (patchBytes · s ((b :: bs).take 256)) :=
          recordBytes_patchAs (by omega) (by simp) htake.le
        have hrest := ih (s := s + 256) (bs := (b :: bs).drop 256) (by omega) (by omega)
        simp only [fun g => patchBytes_take_drop g s (Nat.le_of_not_le hlen)]
        exact hfirst.append hrest

theorem serialize_eq_ok {d : List Hunk} (hd : ∀ h ∈ d, h.stop ≤ 65536) : serialize d = .ok (d.flatMap serializeHunk) :=
  if_pos (by simpa using hd)

theorem flatMap_serializeHunk_patchAs {d : List Hunk} (hd : ∀ h ∈ d, h.stop ≤ 65536) :
    RecordsPatchAs (d.flatMap serializeHunk) (patch · d) := by
  induction d with
  | nil => exact RecordsPatchAs.nil
  | cons h d ih =>
    have hfirst : RecordsPatchAs (serializeHunk h) (patchHunk · h) :=
      chunkRecords_patchAs le_rfl (hd h List.mem_cons_self)
    rw [List.flatMap_cons]
    exact hfirst.append (ih fun k hk => hd k (List.mem_cons_of_mem _ hk))

/-- A diff within the serializer's precondition patches the same after the byte stream (R183). -/
theorem exists_stream_patching_as {d : List Hunk} (hd : ∀ h ∈ d, h.stop ≤ 65536) :
    ∃ stream e, serialize d = .ok stream ∧ deserialize stream = .ok e ∧ ∀ g, patch g e = patch g d := by
  obtain ⟨e, hread, hpatch⟩ := (flatMap_serializeHunk_patchAs hd).deserialize
  exact ⟨_, e, serialize_eq_ok hd, hread, hpatch⟩

end Sys2Proof.Machine

namespace Sys2Proof.Proofs

open Machine

/-- Settles O54: the scan's hunks copy the second grid wherever the two differ, and the byte stream keeps what they write. -/
theorem diffRoundTrip : Obligations.DiffRoundTrip := by
  intro c A B hA hB
  have hdiff := diff_describes c A B
  have hpatch : patch A (diff c A B) = B := hdiff.patch_eq hA hB
  obtain ⟨stream, e, hserialize, hdeserialize, hsame⟩ := exists_stream_patching_as hdiff.stop_le
  exact ⟨hpatch, diff_self c A, stream, e, hserialize, hdeserialize, (hsame A).trans hpatch⟩

end Sys2Proof.Proofs
end

section
/-! What a Move of a player in the grid does, by its candidate and by that cell's byte: 55_host_interface.md R206, R207. -/

namespace Sys2Proof.Machine

theorem performAction_move_of_pos {s : State} {x y : Byte} (d : Dir) (hplayer : s.player = .pos x y) :
    performAction (.move d) s = gridMove d x y s := by
  simp only [performAction, hplayer]

theorem accessible_iff (c : Config) (v : Byte) : accessible c v = true ↔ v &&& playerMask c = 0 := beq_iff_eq

section

variable {s : State} {d : Dir} {x y : Byte}

theorem gridMove_of_rejected (hnone : moveCandidate s.cfg.wrapMode d x y = none) : gridMove d x y s = (s, .blocked) := by
  rw [gridMove, hnone]

variable {cx cy : Byte} (hcand : moveCandidate s.cfg.wrapMode d x y = some (cx, cy))
include hcand

theorem gridMove_of_accessible (hfree : accessible s.cfg (memReadEff s s.activePage (pack cx cy))) :
    gridMove d x y s = ({ s with player := .pos cx cy }, .relocated) := by
  rw [gridMove, hcand]
  exact if_pos hfree

theorem gridMove_of_not_accessible (hblocked : ¬accessible s.cfg (memReadEff s s.activePage (pack cx cy))) :
    gridMove d x y s = (s, .blocked) := by
  rw [gridMove, hcand]
  exact if_neg hblocked

end

end Sys2Proof.Machine
end

section
/-! The candidate cell of a grid move, 55_host_interface.md R203 to R205: the three wrap policies as bit-vector sums, of the
coordinates under Block and WrapLine, of the linear address under WrapGrid. -/

namespace Sys2Proof.Machine

theorem ofInt_toNat_add {w : Nat} (b : BitVec w) (k : Int) : BitVec.ofInt w (b.toNat + k) = b + BitVec.ofInt w k := by
  rw [BitVec.ofInt_add, BitVec.ofInt_natCast, BitVec.ofNat_toNat, BitVec.setWidth_eq]

theorem toNat_ofInt_byte (k : Int) : ((BitVec.ofInt 8 k).toNat : Int) = k % 256 := by
  rw [BitVec.toNat_ofInt]
  omega

/-- A coordinate inside 0 to 255 is the byte it is cut to. -/
theorem ofInt_byte_eq_iff {k : Int} (hk : 0 ≤ k ∧ k ≤ 255) (b : Byte) : BitVec.ofInt 8 k = b ↔ (b.toNat : Int) = k := by
  rw [← BitVec.toNat_inj]
  have hcut := toNat_ofInt_byte k
  omega

/-- Both coordinates of the cell one step away lie in 0 to 255. -/
def InGrid (d : Dir) (x y : Byte) : Prop :=
  (0 ≤ (x.toNat : Int) + d.dx ∧ (x.toNat : Int) + d.dx ≤ 255) ∧ 0 ≤ (y.toNat : Int) + d.dy ∧ (y.toNat : Int) + d.dy ≤ 255

/-- The step of a direction in linear order (55_host_interface.md R205). -/
def Dir.linear (d : Dir) : Addr := BitVec.ofInt 16 (d.dx * 0x100 + d.dy)

theorem Dir.linear_up : Dir.up.linear = -1 := by decide
theorem Dir.linear_down : Dir.down.linear = 1 := by decide
theorem Dir.linear_left : Dir.left.linear = -0x100 := by decide
theorem Dir.linear_right : Dir.right.linear = 0x100 := by decide

theorem moveCandidate_wrapLine (d : Dir) (x y : Byte) :
    moveCandidate .wrapLine d x y = some (x + BitVec.ofInt 8 d.dx, y + BitVec.ofInt 8 d.dy) := by
  rw [← ofInt_toNat_add, ← ofInt_toNat_add]
  rfl

theorem moveCandidate_block_of_inGrid {d : Dir} {x y : Byte} (hin : InGrid d x y) :
    moveCandidate .block d x y = moveCandidate .wrapLine d x y :=
  if_pos (and_assoc.mp hin)

theorem moveCandidate_block_of_not_inGrid {d : Dir} {x y : Byte} (hout : ¬InGrid d x y) :
    moveCandidate .block d x y = none :=
  if_neg fun hin => hout (and_assoc.mpr hin)

theorem moveCandidate_block_eq_none_iff (d : Dir) (x y : Byte) : moveCandidate .block d x y = none ↔ ¬InGrid d x y := by
  refine ⟨fun hnone hin => ?_, moveCandidate_block_of_not_inGrid⟩
  rw [moveCandidate_block_of_inGrid hin, moveCandidate_wrapLine] at hnone
  cases hnone

theorem moveCandidate_block_eq_some_iff (d : Dir) (x y cx cy : Byte) :
    moveCandidate .block d x y = some (cx, cy) ↔
      (cx.toNat : Int) = x.toNat + d.dx ∧ (cy.toNat : Int) = y.toNat + d.dy := by
  by_cases hin : InGrid d x y
  · rw [moveCandidate_block_of_inGrid hin, moveCandidate_wrapLine, ← ofInt_toNat_add, ← ofInt_toNat_add,
      Option.some_inj, Prod.mk.injEq, ofInt_byte_eq_iff hin.1, ofInt_byte_eq_iff hin.2]
  · rw [moveCandidate_block_of_not_inGrid hin]
    refine ⟨fun hnone => (by cases hnone), fun ⟨hx, hy⟩ => absurd ?_ hin⟩
    have hcx := cx.isLt
    have hcy := cy.isLt
    unfold InGrid
    omega

theorem moveCandidate_wrapGrid (d : Dir) (x y : Byte) :
    moveCandidate .wrapGrid d x y = some (xof (pack x y + d.linear), yof (pack x y + d.linear)) := by
  rw [Dir.linear, ← ofInt_toNat_add, ← Int.add_assoc]
  rfl

/-- WrapGrid names the cell whose linear address is one linear step away. -/
theorem moveCandidate_wrapGrid_eq_some_iff (d : Dir) (x y cx cy : Byte) :
    moveCandidate .wrapGrid d x y = some (cx, cy) ↔ pack cx cy = pack x y + d.linear := by
  rw [moveCandidate_wrapGrid, Option.some_inj, Prod.mk.injEq]
  constructor
  · rintro ⟨rfl, rfl⟩
    exact pack_xof_yof _
  · intro hpack
    rw [← hpack, xof_pack, yof_pack]
    exact ⟨rfl, rfl⟩

theorem exists_wrapGrid_candidate (d : Dir) (x y : Byte) :
    ∃ cx cy, moveCandidate .wrapGrid d x y = some (cx, cy) ∧ pack cx cy = pack x y + d.linear :=
  ⟨_, _, moveCandidate_wrapGrid d x y, pack_xof_yof _⟩

/-- A cell is determined by its linear address. -/
theorem cell_eq_of_pack_eq {x y x' y' : Byte} (h : pack x y = pack x' y') : x = x' ∧ y = y' :=
  ⟨by rw [← xof_pack x y, h, xof_pack], by rw [← yof_pack x y, h, yof_pack]⟩

/-- A horizontal step never carries into or out of the row, so the two wrapping policies agree on it. -/
theorem moveCandidate_wrapGrid_right (x y : Byte) :
    moveCandidate .wrapGrid .right x y = moveCandidate .wrapLine .right x y := by
  rw [moveCandidate_wrapLine, moveCandidate_wrapGrid_eq_some_iff, Dir.linear_right, pack_add_column]
  exact congrArg (pack (x + 1)) (add_zero y)

theorem moveCandidate_wrapGrid_left (x y : Byte) :
    moveCandidate .wrapGrid .left x y = moveCandidate .wrapLine .left x y := by
  rw [moveCandidate_wrapLine, moveCandidate_wrapGrid_eq_some_iff, Dir.linear_left, ← sub_eq_add_neg, pack_sub_column,
    sub_eq_add_neg]
  exact congrArg (pack (x + -1)) (add_zero y)

theorem Dir.linear_ne_zero (d : Dir) : d.linear ≠ 0 := by cases d <;> decide

theorem Dir.step_ne_zero (d : Dir) : ¬(BitVec.ofInt 8 d.dx = 0 ∧ BitVec.ofInt 8 d.dy = 0) := by cases d <;> decide

theorem moveCandidate_wrapLine_ne_self (d : Dir) (x y : Byte) : moveCandidate .wrapLine d x y ≠ some (x, y) := by
  rw [moveCandidate_wrapLine, ne_eq, Option.some_inj, Prod.mk.injEq, add_eq_left, add_eq_left]
  exact d.step_ne_zero

/-- No policy names the player's own cell: a step of one cell never returns to the start. -/
theorem moveCandidate_ne_self (w : WrapMode) (d : Dir) (x y : Byte) : moveCandidate w d x y ≠ some (x, y) := by
  cases w with
  | block =>
    by_cases hin : InGrid d x y
    · rw [moveCandidate_block_of_inGrid hin]
      exact moveCandidate_wrapLine_ne_self d x y
    · rw [moveCandidate_block_of_not_inGrid hin]
      exact (Option.some_ne_none _).symm
  | wrapLine => exact moveCandidate_wrapLine_ne_self d x y
  | wrapGrid =>
    rw [ne_eq, moveCandidate_wrapGrid_eq_some_iff, left_eq_add]
    exact d.linear_ne_zero

end Sys2Proof.Machine

namespace Sys2Proof.Proofs

open Machine

/-- Settles O43: Block is the step without wrap where it stays in the grid, and a rejected candidate leaves the state. -/
theorem blockCandidate : Obligations.BlockCandidate := by
  refine ⟨fun d x y => ⟨moveCandidate_block_eq_some_iff d x y, ?_⟩, ?_, rfl⟩
  · rw [moveCandidate_block_eq_none_iff, InGrid, and_assoc]
  · intro d x y s hmode hplayer hnone
    rw [performAction_move_of_pos d hplayer, gridMove_of_rejected (hmode ▸ hnone)]

/-- Settles O44: each coordinate is a sum of bytes, hence taken modulo 256. -/
theorem wrapLineCandidate : Obligations.WrapLineCandidate := by
  intro d x y
  refine ⟨_, _, moveCandidate_wrapLine d x y, ?_, ?_, ?_, ?_⟩
  · rw [← ofInt_toNat_add, toNat_ofInt_byte]
  · rw [← ofInt_toNat_add, toNat_ofInt_byte]
  · rintro rfl rfl
    exact ⟨add_zero x, rfl⟩
  · rintro rfl rfl
    exact ⟨rfl, add_zero y⟩

/-- Settles O45: WrapGrid adds the direction's linear step; the carries are those of the neighbours in linear order. -/
theorem wrapGridCandidate : Obligations.WrapGridCandidate := by
  intro x y
  obtain ⟨dx, dy, hdown, hbelow⟩ := exists_wrapGrid_candidate .down x y
  obtain ⟨ux, uy, hup, habove⟩ := exists_wrapGrid_candidate .up x y
  obtain ⟨rx, ry, hright, hnext⟩ := exists_wrapGrid_candidate .right x y
  obtain ⟨lx, ly, hleft, hprev⟩ := exists_wrapGrid_candidate .left x y
  rw [Dir.linear_down] at hbelow
  rw [Dir.linear_up, ← sub_eq_add_neg] at habove
  rw [Dir.linear_right] at hnext
  rw [Dir.linear_left, ← sub_eq_add_neg] at hprev
  refine ⟨⟨dx, dy, hdown, hbelow, ?carryDown⟩, ⟨ux, uy, hup, habove, ?carryUp⟩, ⟨rx, ry, hright, hnext⟩,
    ⟨lx, ly, hleft, hprev⟩, moveCandidate_wrapGrid_right x y, moveCandidate_wrapGrid_left x y⟩
  case carryDown =>
    rintro rfl
    exact cell_eq_of_pack_eq (hbelow.trans (pack_last_row_add_one x))
  case carryUp =>
    rintro rfl
    exact cell_eq_of_pack_eq (habove.trans (pack_first_row_sub_one x))

end Sys2Proof.Proofs
end

section
/-! A grid move, 55_host_interface.md R206 and R207: the stored byte of the candidate decides, and only the player moves. -/

namespace Sys2Proof.Machine

/-- The candidate is read as stored: the player is never on it. -/
theorem memReadEff_of_candidate {s : State} {w : WrapMode} {d : Dir} {x y cx cy : Byte} (hplayer : s.player = .pos x y)
    (hcand : moveCandidate w d x y = some (cx, cy)) (pg : PageId) :
    memReadEff s pg (pack cx cy) = memRead s pg (pack cx cy) := by
  apply memReadEff_of_player_ne
  rw [hplayer, xof_pack, yof_pack]
  intro hsame
  injection hsame with hx hy
  subst hx hy
  exact moveCandidate_ne_self w d x y hcand

theorem memRead_of_unloaded {s : State} {pg : PageId} (hpg : pg ∉ s.memory.ids) (a : Addr) : memRead s pg a = 0 := by
  unfold memRead
  split
  next p hp =>
    obtain ⟨hmem, rfl⟩ := Memory.page?_mem hp
    exact absurd (List.mem_map_of_mem hmem) hpg
  next => rfl

end Sys2Proof.Machine

namespace Sys2Proof.Proofs

open Machine

/-- Settles O46: the candidate reads as stored, and the move is the test of that byte; an unloaded page stores 0. -/
theorem gridMoveResult : Obligations.GridMoveResult := by
  intro s d x y cx cy hplayer hcand
  have hread := memReadEff_of_candidate hplayer hcand s.activePage
  have hfree : memRead s s.activePage (pack cx cy) &&& playerMask s.cfg = 0 →
      (performAction (.move d) s).1 = { s with player := .pos cx cy } := fun hclear => by
    rw [performAction_move_of_pos d hplayer, gridMove_of_accessible hcand]
    rwa [accessible_iff, hread]
  refine ⟨hread, hfree, fun hset => ?_, fun hunloaded => hfree ?_⟩
  · rw [performAction_move_of_pos d hplayer, gridMove_of_not_accessible hcand]
    rwa [accessible_iff, hread]
  · rw [memRead_of_unloaded hunloaded]
    exact BitVec.zero_and

end Sys2Proof.Proofs
end

section
/-! The set of page ids, 55_host_interface.md R218. -/

namespace Sys2Proof.Bits256

/-- The singleton that `set` joins and `clear` takes away. -/
theorem get_singleton (i j : Byte) : (1#256 <<< i.toNat).getLsbD j.toNat = (j == i) := by
  have hi : i.toNat < 256 := i.isLt
  rw [← BitVec.twoPow_eq, BitVec.getLsbD_twoPow, decide_eq_true hi, Bool.true_and, Bool.eq_iff_iff, decide_eq_true_iff,
    beq_iff_eq, BitVec.toNat_inj, eq_comm]

theorem get_set (b : Bits256) (i j : Byte) : (b.set i).get j = (b.get j || j == i) := by
  rw [get, set, BitVec.getLsbD_or, get_singleton, get]

theorem get_clear (b : Bits256) (i j : Byte) : (b.clear i).get j = (b.get j && j != i) := by
  have hj : j.toNat < 256 := j.isLt
  rw [get, clear, BitVec.getLsbD_and, BitVec.getLsbD_not, get_singleton, decide_eq_true hj, Bool.true_and, get, bne]

end Sys2Proof.Bits256

namespace Sys2Proof.Proofs

/-- Settles O52: `set` joins the singleton, `clear` takes it away. -/
theorem visitedSetLaws : Obligations.VisitedSetLaws := fun b i j => ⟨b.get_set i j, b.get_clear i j⟩

end Sys2Proof.Proofs
end

section
/-! The decoder and the encoder, 30_encoding.md R91, R96, R99 and R100: one equation per opcode, and the two round trips. -/

namespace Sys2Proof

open Machine

theorem assembleAddr_xof_yof (o : AddrOperandOrder) (t : Addr) :
    ∃ b1 b2, addrBytes o t = [b1, b2] ∧ assembleAddr o b1 b2 = t := by
  cases o with
  | xy => exact ⟨xof t, yof t, rfl, pack_xof_yof t⟩
  | yx => exact ⟨yof t, xof t, rfl, pack_xof_yof t⟩

theorem addrBytes_assembleAddr (o : AddrOperandOrder) (b1 b2 : Byte) : addrBytes o (assembleAddr o b1 b2) = [b1, b2] := by
  cases o with
  | xy => simp only [assembleAddr, addrBytes, xof_pack, yof_pack]
  | yx => simp only [assembleAddr, addrBytes, xof_pack, yof_pack]

section

variable (o : AddrOperandOrder) (b1 b2 : Byte)

theorem decode_opAdd : decode o opAdd b1 b2 = .add b1 := rfl
theorem decode_opCompare : decode o opCompare b1 b2 = .compare b1 := rfl
theorem decode_opJumpEqual : decode o opJumpEqual b1 b2 = .jumpEqual (assembleAddr o b1 b2) := rfl
theorem decode_opJumpGreater : decode o opJumpGreater b1 b2 = .jumpGreater (assembleAddr o b1 b2) := rfl
theorem decode_opJump : decode o opJump b1 b2 = .jump (assembleAddr o b1 b2) := rfl
theorem decode_opJumpLess : decode o opJumpLess b1 b2 = .jumpLess (assembleAddr o b1 b2) := rfl
theorem decode_opPage : decode o opPage b1 b2 = .page b1 := rfl
theorem decode_opSwap : decode o opSwap b1 b2 = .swap (assembleAddr o b1 b2) := rfl

theorem mem_opcodes_iff (op : Byte) :
    op ∈ opcodes ↔ op = opAdd ∨ op = opCompare ∨ op = opJumpEqual ∨ op = opJumpGreater ∨ op = opJump ∨
      op = opJumpLess ∨ op = opPage ∨ op = opSwap := by
  simp only [opcodes, List.mem_cons, List.not_mem_nil, or_false]

theorem isOpcode_eq_true_iff (op : Byte) : isOpcode op = true ↔ op ∈ opcodes := List.contains_iff_mem

/-- Every byte that is no opcode decodes to None (R100). -/
theorem decode_of_not_mem_opcodes {op : Byte} (hop : op ∉ opcodes) : decode o op b1 b2 = .noneOp op := by
  simp only [mem_opcodes_iff, not_or] at hop
  obtain ⟨hadd, hcompare, hequal, hgreater, hjump, hless, hpage, hswap⟩ := hop
  simp only [decode, hadd, hcompare, hequal, hgreater, hjump, hless, hpage, hswap, if_false]

/-- An opcode never decodes to None, and its encoding is the bytes its format has. -/
theorem decode_of_mem_opcodes {op : Byte} (hop : op ∈ opcodes) :
    isNone (decode o op b1 b2) = false ∧ (decode o op b1 b2).wellFormed = true ∧
      encode o (decode o op b1 b2) = [op, b1, b2].take (decode o op b1 b2).format.bytes := by
  have haddr (op' : Byte) : op' :: addrBytes o (assembleAddr o b1 b2) = [op', b1, b2] :=
    congrArg (op' :: ·) (addrBytes_assembleAddr o b1 b2)
  rcases (mem_opcodes_iff op).1 hop with rfl | rfl | rfl | rfl | rfl | rfl | rfl | rfl
  · exact ⟨rfl, rfl, rfl⟩
  · exact ⟨rfl, rfl, rfl⟩
  · exact ⟨rfl, rfl, haddr opJumpEqual⟩
  · exact ⟨rfl, rfl, haddr opJumpGreater⟩
  · exact ⟨rfl, rfl, haddr opJump⟩
  · exact ⟨rfl, rfl, haddr opJumpLess⟩
  · exact ⟨rfl, rfl, rfl⟩
  · exact ⟨rfl, rfl, haddr opSwap⟩

theorem isNone_decode_iff (op : Byte) : isNone (decode o op b1 b2) = true ↔ op ∉ opcodes := by
  by_cases hop : op ∈ opcodes
  · simp [hop, (decode_of_mem_opcodes o b1 b2 hop).1]
  · simp [hop, decode_of_not_mem_opcodes o b1 b2 hop, isNone]

theorem wellFormed_noneOp_iff (op : Byte) : (Instr.noneOp op).wellFormed = true ↔ op ∉ opcodes := by
  rw [← isOpcode_eq_true_iff, Instr.wellFormed, Bool.not_eq_true', Bool.not_eq_true]

end

/-- An opcode cell and the two bytes of an address decode to what the opcode makes of that address, whatever follows. -/
theorem decodeRow_addrBytes {o : AddrOperandOrder} {op : Byte} {make : Addr → Instr}
    (hmake : ∀ b1 b2, decode o op b1 b2 = make (assembleAddr o b1 b2)) (t : Addr) (rest : List Byte) :
    decodeRow o (op :: addrBytes o t ++ rest) = .ok (make t) := by
  obtain ⟨b1, b2, hbytes, rfl⟩ := assembleAddr_xof_yof o t
  rw [hbytes, ← hmake]
  rfl

theorem decodeRow_encode {i : Instr} (hwf : i.wellFormed = true) (o : AddrOperandOrder) (rest : List Byte) :
    decodeRow o (encode o i ++ rest) = .ok i := by
  cases i with
  | add v => exact congrArg _ (decode_opAdd o v _)
  | compare v => exact congrArg _ (decode_opCompare o v _)
  | jumpEqual t => exact decodeRow_addrBytes (decode_opJumpEqual o) t rest
  | jumpGreater t => exact decodeRow_addrBytes (decode_opJumpGreater o) t rest
  | jump t => exact decodeRow_addrBytes (decode_opJump o) t rest
  | jumpLess t => exact decodeRow_addrBytes (decode_opJumpLess o) t rest
  | page v => exact congrArg _ (decode_opPage o v _)
  | swap t => exact decodeRow_addrBytes (decode_opSwap o) t rest
  | noneOp op => exact congrArg _ (decode_of_not_mem_opcodes o _ _ ((wellFormed_noneOp_iff op).1 hwf))

end Sys2Proof

namespace Sys2Proof.Proofs

open Machine

/-- Settles O1: one equation per opcode, and the two address bytes assemble to the address under either order. -/
theorem decodeEncodeRoundTrip : Obligations.DecodeEncodeRoundTrip := fun o _ rest hwf => decodeRow_encode hwf o rest

/-- Settles O2: an opcode's operand bytes are those of its address or its immediate; any other byte is kept by its None. -/
theorem encodeDecodeRoundTrip : Obligations.EncodeDecodeRoundTrip := by
  intro o op b1 b2
  by_cases hop : op ∈ opcodes
  · exact (decode_of_mem_opcodes o b1 b2 hop).2
  · rw [decode_of_not_mem_opcodes o b1 b2 hop]
    exact ⟨(wellFormed_noneOp_iff op).2 hop, rfl⟩

/-- Settles O3: the decoder run on the eight rows. -/
theorem sampleRowsDecode : Obligations.SampleRowsDecode := ⟨rfl, rfl, rfl, rfl, rfl, rfl, rfl, rfl⟩

/-- Settles O4: the eight bytes are the opcodes. -/
theorem onlyEightBytesDecodeToInstructions : Obligations.OnlyEightBytesDecodeToInstructions := fun o op b1 b2 =>
  isNone_decode_iff o b1 b2 op

end Sys2Proof.Proofs
end

section
/-! Fetch and operands, 21_overlay.md R80, R81 and R87, 30_encoding.md R95 to R98, 40_cpu_step.md R112: the byte that
decides, the operands beside it, and why an unloaded page has no opcode. -/

namespace Sys2Proof.Machine

theorem memReadEff_of_away {s : State} {pg : PageId} {a : Addr}
    (haway : ¬(s.player = .pos (xof a) (yof a) ∧ s.activePage = pg)) : memReadEff s pg a = memRead s pg a :=
  not_not.mp fun hne => haway (player_of_memReadEff_ne hne)

theorem memReadEff_of_unloaded {s : State} {pg : PageId} (hpg : pg ∉ s.memory.ids) (a : Addr) :
    memReadEff s pg a = effective 0 (playerAtCell s pg a) (playerMask s.cfg) := by
  rw [memReadEff, memRead_of_unloaded hpg]

theorem memWrite_of_unloaded {s : State} {pg : PageId} (hpg : pg ∉ s.memory.ids) (a : Addr) (v : Byte) :
    memWrite s pg a v = s := by
  rw [memWrite, Memory.modify_unloaded _ hpg]

theorem toNat_playerMask (c : Config) : (playerMask c).toNat = 2 ^ c.playerOffset.val := by
  rw [playerMask, ← BitVec.twoPow_eq, BitVec.toNat_twoPow_of_lt c.playerOffset.isLt]

/-- The masks of the eight offsets (R80). -/
theorem playerMask_mem (c : Config) :
    playerMask c ∈ ([0x01, 0x02, 0x04, 0x08, 0x10, 0x20, 0x40, 0x80] : List Byte) := by
  have hall : ∀ k : Fin 8, 1#8 <<< k.val ∈ ([0x01, 0x02, 0x04, 0x08, 0x10, 0x20, 0x40, 0x80] : List Byte) := by decide
  exact hall c.playerOffset

/-- A byte with at most one bit is no opcode: every opcode has three. -/
theorem effective_zero_not_mem_opcodes (here : Bool) (c : Config) : effective 0 here (playerMask c) ∉ opcodes := by
  have hall : ∀ m ∈ ([0x01, 0x02, 0x04, 0x08, 0x10, 0x20, 0x40, 0x80] : List Byte), ∀ b, effective 0 b m ∉ opcodes := by
    decide
  exact hall _ (playerMask_mem c) here

/-! Operands. -/

theorem operand_past_edge {a : Addr} {k : Nat} (hk : (xof a).toNat + k > 255) (s : State) (pg : PageId) :
    operand s pg a k = 0 :=
  if_pos hk

theorem operand_in_row {a : Addr} {k : Nat} (hk : (xof a).toNat + k ≤ 255) (s : State) (pg : PageId) :
    operand s pg a k =
      memReadView s s.cfg.operandView pg (pack (BitVec.ofNat 8 ((xof a).toNat + k)) (yof a)) :=
  if_neg (by omega)

/-- The address operand of an instruction, in the configured order (R96). -/
theorem assembleAddr_eq {o : AddrOperandOrder} {b1 b2 : Byte} {t : Addr}
    (hxy : o = .xy → t.toNat = b1.toNat * 256 + b2.toNat) (hyx : o = .yx → t.toNat = b2.toNat * 256 + b1.toNat) :
    assembleAddr o b1 b2 = t := by
  apply BitVec.eq_of_toNat_eq
  cases o with
  | xy => rw [hxy rfl, assembleAddr, toNat_pack]
  | yx => rw [hyx rfl, assembleAddr, toNat_pack]

theorem readInstruction_of_byte {s : State} {pg : PageId} {a : Addr} {op : Byte} (hop : memReadEff s pg a = op) :
    readInstruction s pg a = decode s.cfg.addrOperandOrder op (operand s pg a 1) (operand s pg a 2) := by
  rw [readInstruction, hop]

theorem isNone_readInstruction_of_unloaded {s : State} {pg : PageId} (hpg : pg ∉ s.memory.ids) (a : Addr) :
    isNone (readInstruction s pg a) = true := by
  rw [readInstruction, isNone_decode_iff, memReadEff_of_unloaded hpg]
  exact effective_zero_not_mem_opcodes _ s.cfg

end Sys2Proof.Machine

namespace Sys2Proof.Proofs

open Machine

/-- Settles O8: such a page reads 0 or the mask alone, and neither is an opcode. -/
theorem unloadedPageDecodesToNone : Obligations.UnloadedPageDecodesToNone := fun _ _ a hpg =>
  isNone_readInstruction_of_unloaded hpg a

/-- Settles O5: the overlay under that mask, for each of the 256 bytes. -/
theorem overlayMakesOpcodes : Obligations.OverlayMakesOpcodes := by
  unfold Obligations.OverlayMakesOpcodes
  decide

/-- Settles O6: the two branches of the operand fetch, and the two views of the second. -/
theorem operandEdgeRule : Obligations.OperandEdgeRule := by
  intro s pg a k _
  refine ⟨fun hk => operand_past_edge hk s pg, fun hk hview => ?_, fun hk hview => ?_⟩
  · rw [operand_in_row hk, hview, memReadView]
  · rw [operand_in_row hk, hview, memReadView]

/-- Settles O7: the decoder's equation for each opcode, with the address assembled in the configured order. -/
theorem readInstructionCaseTable : Obligations.ReadInstructionCaseTable := by
  intro s pg a t hxy hyx
  have ht := assembleAddr_eq hxy hyx
  refine ⟨fun hop => ?_, fun hop => ?_, fun hop => ?_, fun hop => ?_, fun hop => ?_, fun hop => ?_, fun hop => ?_,
    fun hop => ?_, fun hop => ?_⟩
  · exact (readInstruction_of_byte hop).trans ((decode_opJump _ _ _).trans (congrArg _ ht))
  · exact (readInstruction_of_byte hop).trans ((decode_opSwap _ _ _).trans (congrArg _ ht))
  · exact (readInstruction_of_byte hop).trans (decode_opCompare _ _ _)
  · exact (readInstruction_of_byte hop).trans ((decode_opJumpEqual _ _ _).trans (congrArg _ ht))
  · exact (readInstruction_of_byte hop).trans ((decode_opJumpLess _ _ _).trans (congrArg _ ht))
  · exact (readInstruction_of_byte hop).trans ((decode_opJumpGreater _ _ _).trans (congrArg _ ht))
  · exact (readInstruction_of_byte hop).trans (decode_opAdd _ _ _)
  · exact (readInstruction_of_byte hop).trans (decode_opPage _ _ _)
  · exact decode_of_not_mem_opcodes _ _ _ hop

/-- Settles O9: the two views of a register operand. -/
theorem registerOperandView : Obligations.RegisterOperandView := fun s r =>
  ⟨fun hview => by rw [regOperand, hview], fun hview => by rw [regOperand, hview]⟩

/-- Settles O11: no page of the table has the id, so nothing is read and nothing is changed. -/
theorem nullPage : Obligations.NullPage := fun _ _ a v hpg => ⟨memRead_of_unloaded hpg a, memWrite_of_unloaded hpg a v⟩

/-- Settles O12: the shift of 1 by each of the eight offsets. -/
theorem playerMaskIsOneBit : Obligations.PlayerMaskIsOneBit :=
  ⟨toNat_playerMask, playerMask_mem, fun c hoffset => by rw [playerMask, hoffset]; rfl, rfl⟩

/-- Settles O13: under the player or away from it; the byte of an unloaded page is 0. -/
theorem effectiveCellValue : Obligations.EffectiveCellValue := by
  intro s pg a
  refine ⟨fun ⟨hplayer, hpage⟩ => memReadEff_of_player hplayer hpage, memReadEff_of_away, ?_, fun _ _ => rfl⟩
  intro hpg hplayer hpage
  rw [memReadEff_of_player hplayer hpage, memRead_of_unloaded hpg]
  exact BitVec.zero_or

end Sys2Proof.Proofs
end

section
/-! Frames, 10_state.md section 1: what each state operation leaves unchanged, and that frames compose. -/

namespace Sys2Proof.Machine

variable {s t u : State}

theorem SameBytes.trans (h : SameBytes s t) (h' : SameBytes t u) : SameBytes s u := fun pg a => (h' pg a).trans (h pg a)

theorem SamePlace.trans (h : SamePlace s t) (h' : SamePlace t u) : SamePlace s u :=
  ⟨h'.1.trans h.1, h'.2.trans h.2⟩

theorem SameConstants.trans (h : SameConstants s t) (h' : SameConstants t u) : SameConstants s u := by
  obtain ⟨hcfg, hids, hdata, hdname, hpage, hpname, hcompare, hcname⟩ := h
  obtain ⟨hcfg', hids', hdata', hdname', hpage', hpname', hcompare', hcname'⟩ := h'
  exact ⟨hcfg'.trans hcfg, hids'.trans hids, hdata'.trans hdata, hdname'.trans hdname, hpage'.trans hpage,
    hpname'.trans hpname, hcompare'.trans hcompare, hcname'.trans hcname⟩

theorem SameHostState.trans (h : SameHostState s t) (h' : SameHostState t u) : SameHostState s u := by
  obtain ⟨htable, hvisited, hend, hmessages, hinputs⟩ := h
  obtain ⟨htable', hvisited', hend', hmessages', hinputs'⟩ := h'
  exact ⟨fun pg => (htable' pg).trans (htable pg), hvisited'.trans hvisited, hend'.trans hend,
    hmessages'.trans hmessages, hinputs'.trans hinputs⟩

theorem Untouched.trans (h : Untouched s t) (h' : Untouched t u) : Untouched s u := by
  obtain ⟨hbytes, hplace, hflag, hhost, hconst⟩ := h
  obtain ⟨hbytes', hplace', hflag', hhost', hconst'⟩ := h'
  exact ⟨hbytes.trans hbytes', hplace.trans hplace', hflag'.trans hflag, hhost.trans hhost', hconst.trans hconst'⟩

theorem Untouched.sameConstants (h : Untouched s t) : SameConstants s t := by
  obtain ⟨-, -, -, -, hconst⟩ := h
  exact hconst

theorem SameConstants.ids_eq (h : SameConstants s t) : t.memory.ids = s.memory.ids := by
  obtain ⟨-, hids, -⟩ := h
  exact hids

/-! The constants under each operation (10_state.md R26, R37). -/

/-- An operation that leaves the registers alone keeps their inert fields. -/
theorem sameConstants_of_regs_eq (hcfg : t.cfg = s.cfg) (hids : t.memory.ids = s.memory.ids) (hregs : t.regs = s.regs) :
    SameConstants s t := by
  unfold SameConstants
  rw [hregs]
  exact ⟨hcfg, hids, rfl, rfl, rfl, rfl, rfl, rfl⟩

theorem SameConstants.refl (s : State) : SameConstants s s := sameConstants_of_regs_eq rfl rfl rfl

theorem sameConstants_setPc (s : State) (p : Addr) : SameConstants s (s.setPc p) := sameConstants_of_regs_eq rfl rfl rfl

theorem sameConstants_setReg (s : State) (r : RegId) (v : Byte) : SameConstants s (s.setReg r v) :=
  ⟨setReg_cfg s r v, congrArg Memory.ids (setReg_memory s r v), setReg_inert s r v⟩

theorem sameConstants_memWrite (s : State) (pg : PageId) (a : Addr) (v : Byte) : SameConstants s (memWrite s pg a v) :=
  sameConstants_of_regs_eq rfl (memWrite_ids s pg a v) rfl

theorem sameConstants_carryPlayer (pg : PageId) (a : Addr) (s : State) : SameConstants s (carryPlayer pg a s) :=
  sameConstants_of_regs_eq (carryPlayer_cfg pg a s) (congrArg Memory.ids (carryPlayer_memory pg a s))
    (carryPlayer_regs pg a s)

theorem sameConstants_switchPage (v : PageId) (s : State) : SameConstants s (switchPage v s) :=
  sameConstants_setReg s .page v

theorem sameConstants_swapAt (pg : PageId) (a : Addr) (s : State) : SameConstants s (swapAt pg a s) :=
  ((sameConstants_memWrite s pg a _).trans (sameConstants_setReg _ .data _)).trans (sameConstants_carryPlayer pg a _)

/-! The host's state under each operation. -/

theorem sameHostState_setReg (s : State) (r : RegId) (v : Byte) : SameHostState s (s.setReg r v) :=
  ⟨triggerTable_congr (setReg_memory s r v), setReg_visited s r v, setReg_endOfLevel s r v, setReg_messages s r v,
    setReg_inputs s r v⟩

theorem sameHostState_setPc (s : State) (p : Addr) : SameHostState s (s.setPc p) := ⟨fun _ => rfl, rfl, rfl, rfl, rfl⟩

theorem sameHostState_switchPage (v : PageId) (s : State) : SameHostState s (switchPage v s) :=
  ⟨fun _ => rfl, rfl, rfl, rfl, rfl⟩

theorem sameHostState_swapAt (pg : PageId) (a : Addr) (s : State) : SameHostState s (swapAt pg a s) :=
  ⟨fun pg' => (triggerTable_congr (swapAt_memory pg a s) pg').trans (triggerTable_memWrite s pg a _ pg'),
    swapAt_visited pg a s, swapAt_endOfLevel pg a s, swapAt_messages pg a s, swapAt_inputs pg a s⟩

/-! Writes of `pc` and of a register. -/

theorem sameBytes_of_memory_eq (h : t.memory = s.memory) : SameBytes s t := memRead_congr h

theorem untouched_setPc (s : State) (p : Addr) : Untouched s (s.setPc p) :=
  ⟨fun _ _ => rfl, ⟨rfl, rfl⟩, rfl, sameHostState_setPc s p, sameConstants_setPc s p⟩

theorem untouched_setReg (s : State) (r : RegId) (v : Byte) : Untouched s (s.setReg r v) :=
  ⟨sameBytes_of_memory_eq (setReg_memory s r v), ⟨setReg_player s r v, setReg_activePage s r v⟩,
    setReg_pageInstrExecuted s r v, sameHostState_setReg s r v, sameConstants_setReg s r v⟩

theorem untouched_advancePc (s : State) : Untouched s s.advancePc := untouched_setPc s _

theorem jumpIf_eq_setPc (taken : Bool) (target : Addr) (s : State) :
    jumpIf taken target s = s.setPc (if taken then target else sat16 (s.pc.toNat + 1)) := by
  cases taken <;> rfl

/-- A jump does not read the player. -/
theorem jumpIf_setPlayer (taken : Bool) (target : Addr) (s : State) (p : Player) :
    jumpIf taken target { s with player := p } = { jumpIf taken target s with player := p } := by
  rw [jumpIf_eq_setPc, jumpIf_eq_setPc]
  rfl

theorem untouched_jumpIf (taken : Bool) (target : Addr) (s : State) : Untouched s (jumpIf taken target s) := by
  rw [jumpIf_eq_setPc]
  exact untouched_setPc s _

/-! The advance of `pc` (10_state.md R29). -/

theorem sat16_succ (pc : Addr) : sat16 (pc.toNat + 1) = advanced pc := by
  unfold sat16 advanced
  by_cases hlast : pc = 0xFFFF
  · subst hlast
    rfl
  · have hlt : pc.toNat ≠ 65535 := fun h => hlast (BitVec.eq_of_toNat_eq h)
    have hbound := pc.isLt
    rw [if_neg hlast, if_pos (by omega)]
    apply BitVec.eq_of_toNat_eq
    simp [BitVec.toNat_add]

theorem advancePc_pc_eq (s : State) : s.advancePc.pc = advanced s.pc := sat16_succ s.pc

theorem jumpIf_pc_eq (taken : Bool) (target : Addr) (s : State) :
    (jumpIf taken target s).pc = if taken = true then target else advanced s.pc := by
  rw [jumpIf_pc, sat16_succ]

/-- The advance carries from the last row into the next column, but for the last column. -/
theorem advanced_last_row {x : Byte} (hx : x ≠ 255) : advanced (pack x 255) = pack (x + 1) 0 := by
  have hne : pack x 255 ≠ 0xFFFF := fun h => hx (cell_eq_of_pack_eq (y' := 255) h).1
  rw [advanced, if_neg hne, pack_last_row_add_one]

end Sys2Proof.Machine
end

section
/-! What each instruction leaves and what it changes, 41_jump.md to 47_none.md. -/

namespace Sys2Proof.Machine

/-- Everything an instruction can do: Add, Compare, an enabled Page and Swap write what they name; every other one writes
`pc` at most. -/
theorem exec_cases {i : Instr} {s t : State} (h : exec i s = .next t) :
    (∃ v, i = .add v ∧ t = s.advancePc.setReg .data (regOperand s .data + v)) ∨
    (∃ v, i = .compare v ∧ t = s.advancePc.setReg .compare (compareValue (regOperand s .data) v)) ∨
    (∃ v, i = .page v ∧ s.cfg.pageSwitchEnabled = true ∧ t = switchPage v s.advancePc) ∨
    (∃ target, i = .swap target ∧ t = swapAt (cpuPage s) target s.advancePc) ∨
    (∃ pc, t = s.setPc pc) := by
  have hjump {taken : Bool} {target : Addr} (ht : t = jumpIf taken target s) : ∃ pc, t = s.setPc pc :=
    ⟨_, ht.trans (jumpIf_eq_setPc taken target s)⟩
  cases i with
  | add v => exact Or.inl ⟨v, rfl, (Outcome_next_inj h).symm⟩
  | compare v => exact Or.inr (Or.inl ⟨v, rfl, (Outcome_next_inj h).symm⟩)
  | jumpEqual target => exact Or.inr (Or.inr (Or.inr (Or.inr (hjump (Outcome_next_inj h).symm))))
  | jumpGreater target => exact Or.inr (Or.inr (Or.inr (Or.inr (hjump (Outcome_next_inj h).symm))))
  | jump target => exact Or.inr (Or.inr (Or.inr (Or.inr ⟨target, (Outcome_next_inj h).symm⟩)))
  | jumpLess target => exact Or.inr (Or.inr (Or.inr (Or.inr (hjump (Outcome_next_inj h).symm))))
  | page v =>
    have ht := (Outcome_next_inj h).symm
    by_cases henabled : s.cfg.pageSwitchEnabled = true
    · exact Or.inr (Or.inr (Or.inl ⟨v, rfl, henabled, ht.trans (if_pos henabled)⟩))
    · exact Or.inr (Or.inr (Or.inr (Or.inr ⟨_, ht.trans (if_neg henabled)⟩)))
  | swap target => exact Or.inr (Or.inr (Or.inr (Or.inl ⟨target, rfl, (Outcome_next_inj h).symm⟩)))
  | noneOp op => exact Or.inr (Or.inr (Or.inr (Or.inr ⟨s.pc, (Outcome_next_inj h).symm⟩)))

/-! Swap (42_swap.md R135). -/

theorem exec_swap (target : Addr) (s : State) :
    exec (.swap target) s = .next (swapAt (cpuPage s) target s.advancePc) := rfl

/-- Every byte but the swapped one reads as before. -/
theorem sameBytesExcept_swapAt (pg : PageId) (a : Addr) (s : State) : SameBytesExcept pg a s (swapAt pg a s) :=
  fun pg' a' hother => (memRead_congr (swapAt_memory pg a s) pg' a').trans (memRead_memWrite_other s _ hother)

theorem memRead_swapAt_same {s : State} {pg : PageId} (hwf : s.inv) (hpg : pg ∈ s.memory.ids) (a : Addr) :
    memRead (swapAt pg a s) pg a = s.reg .data :=
  (memRead_congr (swapAt_memory pg a s) pg a).trans (memRead_memWrite_same pg a _ hwf hpg)

theorem sameBytes_swapAt_of_unloaded {s : State} {pg : PageId} (hpg : pg ∉ s.memory.ids) (a : Addr) :
    SameBytes s (swapAt pg a s) :=
  sameBytes_of_memory_eq ((swapAt_memory pg a s).trans (congrArg State.memory (memWrite_of_unloaded hpg a _)))

theorem sameRegsExcept_swapAt (pg : PageId) (a : Addr) (s : State) : SameRegsExcept .data s (swapAt pg a s) := by
  intro r hr
  cases r with
  | data => exact absurd rfl hr
  | page => exact swapAt_reg_page pg a s
  | compare => exact swapAt_reg_compare pg a s

theorem swapAt_inv {s : State} (hwf : s.inv) (pg : PageId) (a : Addr) : (swapAt pg a s).inv := by
  rw [State.inv, swapAt_memory]
  exact memWrite_wf pg a _ hwf

section

variable {s : State} {pg : PageId} {a : Addr}

/-- A player on the swapped cell goes to the Data register. -/
theorem swapAt_of_on_cell (hplayer : s.player = .pos (xof a) (yof a)) :
    (swapAt pg a s).player = .reg .data ∧ (swapAt pg a s).activePage = s.activePage := by
  simp [swapAt, carryPlayer, hplayer]

/-- A player on the Data register goes to the swapped cell. -/
theorem swapAt_of_on_data (hplayer : s.player = .reg .data) :
    (swapAt pg a s).player = .pos (xof a) (yof a) ∧ (swapAt pg a s).activePage = pg := by
  simp [swapAt, carryPlayer, hplayer]

theorem swapAt_of_elsewhere (hcell : s.player ≠ .pos (xof a) (yof a)) (hdata : s.player ≠ .reg .data) :
    SamePlace s (swapAt pg a s) := by
  simp [SamePlace, swapAt, carryPlayer, hcell, hdata]

end

/-- Swap brings no player to or from the Page register. -/
theorem swapAt_player_eq_reg_page_iff (pg : PageId) (a : Addr) (s : State) :
    (swapAt pg a s).player = .reg .page ↔ s.player = .reg .page := by
  by_cases hcell : s.player = .pos (xof a) (yof a)
  · simp [(swapAt_of_on_cell hcell (pg := pg)).1, hcell]
  · by_cases hdata : s.player = .reg .data
    · simp [(swapAt_of_on_data hdata (pg := pg) (a := a)).1, hdata]
    · rw [(swapAt_of_elsewhere hcell hdata (pg := pg)).1]

theorem cpuPage_swapAt (pg : PageId) (a : Addr) (s : State) : cpuPage (swapAt pg a s) = cpuPage s := by
  simp only [cpuPage, regEff, playerAtReg, swapAt_player_eq_reg_page_iff, swapAt_reg_page, swapAt_cfg]

/-! Two Swaps of one cell, the second after the advance of `pc` (42_swap.md corner case (g)). -/

section

variable {s : State} {pg : PageId}

theorem memRead_swapAt_twice (hwf : s.inv) (hpg : pg ∈ s.memory.ids) (a : Addr) :
    memRead (swapAt pg a (swapAt pg a s).advancePc) pg a = memRead s pg a := by
  have hids : (swapAt pg a s).memory.ids = s.memory.ids := (sameConstants_swapAt pg a s).ids_eq
  exact (memRead_swapAt_same (s := (swapAt pg a s).advancePc) (swapAt_inv hwf pg a) (hids ▸ hpg) a).trans
    (swapAt_reg_data pg a s)

theorem sameBytes_swapAt_twice (hwf : s.inv) (hpg : pg ∈ s.memory.ids) (a : Addr) :
    SameBytes s (swapAt pg a (swapAt pg a s).advancePc) := by
  intro pg' a'
  by_cases hhere : pg' = pg ∧ a' = a
  · obtain ⟨rfl, rfl⟩ := hhere
    exact memRead_swapAt_twice hwf hpg a'
  · exact (sameBytesExcept_swapAt pg a (swapAt pg a s).advancePc pg' a' hhere).trans
      (sameBytesExcept_swapAt pg a s pg' a' hhere)

theorem sameRegs_swapAt_twice (hwf : s.inv) (hpg : pg ∈ s.memory.ids) (a : Addr) :
    SameRegs s (swapAt pg a (swapAt pg a s).advancePc) := by
  intro r
  cases r with
  | data => exact (swapAt_reg_data pg a _).trans (memRead_swapAt_same hwf hpg a)
  | page => exact (swapAt_reg_page pg a _).trans (swapAt_reg_page pg a s)
  | compare => exact (swapAt_reg_compare pg a _).trans (swapAt_reg_compare pg a s)

/-- The player's way there and back; on a swapped cell it must be on the swapped page. -/
theorem samePlace_swapAt_twice (hpage : s.activePage = pg) (a : Addr) :
    SamePlace s (swapAt pg a (swapAt pg a s).advancePc) := by
  by_cases hcell : s.player = .pos (xof a) (yof a)
  · obtain ⟨hplayer, -⟩ := swapAt_of_on_cell (pg := pg) hcell
    obtain ⟨hback, hactive⟩ := swapAt_of_on_data (s := (swapAt pg a s).advancePc) (pg := pg) (a := a) hplayer
    exact ⟨hback.trans hcell.symm, hactive.trans hpage.symm⟩
  · by_cases hdata : s.player = .reg .data
    · obtain ⟨hplayer, hactive⟩ := swapAt_of_on_data (pg := pg) (a := a) hdata
      obtain ⟨hback, hactive'⟩ := swapAt_of_on_cell (s := (swapAt pg a s).advancePc) (pg := pg) hplayer
      exact ⟨hback.trans hdata.symm, hactive'.trans (hactive.trans hpage.symm)⟩
    · have hfirst := swapAt_of_elsewhere (pg := pg) hcell hdata
      have hsecond := swapAt_of_elsewhere (s := (swapAt pg a s).advancePc) (pg := pg) (a := a)
        (fun h => hcell (hfirst.1.symm.trans h)) (fun h => hdata (hfirst.1.symm.trans h))
      exact hfirst.trans hsecond

end

/-! Page (46_page.md R155). -/

theorem exec_page_of_enabled {s : State} (henabled : s.cfg.pageSwitchEnabled = true) (v : Byte) :
    exec (.page v) s = .next (switchPage v s.advancePc) :=
  congrArg _ (if_pos henabled)

theorem exec_page_of_disabled {s : State} (hdisabled : ¬s.cfg.pageSwitchEnabled = true) (v : Byte) :
    exec (.page v) s = .next s.advancePc :=
  congrArg _ (if_neg hdisabled)

theorem playerMask_ne_zero (c : Config) : playerMask c ≠ 0 := by
  have hpos : 0 < 2 ^ c.playerOffset.val := Nat.two_pow_pos _
  rw [← toNat_playerMask] at hpos
  intro hzero
  rw [hzero] at hpos
  exact absurd hpos (Nat.lt_irrefl 0)

/-- A byte without the mask bit differs from itself with the mask. -/
theorem or_playerMask_ne {v : Byte} {c : Config} (hclear : v &&& playerMask c = 0) : v ||| playerMask c ≠ v := by
  intro h
  refine playerMask_ne_zero c (BitVec.eq_of_getLsbD_eq fun i hi => ?_)
  have hbit := congrArg (BitVec.getLsbD · i) h
  have hbit' := congrArg (BitVec.getLsbD · i) hclear
  simp only [BitVec.getLsbD_or, BitVec.getLsbD_and] at hbit hbit' ⊢
  cases hv : v.getLsbD i with
  | false => simpa [hv] using hbit
  | true => simpa [hv] using hbit'

/-! Register operands. -/

theorem regOperand_of_stored {s : State} (hview : s.cfg.regOperandView = .stored) (r : RegId) :
    regOperand s r = s.reg r := by
  rw [regOperand, hview]

theorem takenEqual_iff (c : Byte) : takenEqual c = true ↔ c = 0 := beq_iff_eq
theorem takenGreater_iff (c : Byte) : takenGreater c = true ↔ c = 1 := beq_iff_eq
theorem takenLess_iff (c : Byte) : takenLess c = true ↔ c.toNat > 1 := decide_eq_true_iff

theorem compareValue_of_lt {d v : Byte} (h : v.toNat < d.toNat) : compareValue d v = 0x01 := by
  rw [compareValue, if_neg (fun he => by simp [he] at h), if_pos h]

theorem compareValue_of_gt {d v : Byte} (h : d.toNat < v.toNat) : compareValue d v = 0xFF := by
  rw [compareValue, if_neg (fun he => by simp [he] at h), if_neg (Nat.lt_asymm h)]

/-- An advance of `pc` and a write of one register leave everything but these. -/
theorem untouched_advancePc_setReg (s : State) (r : RegId) (v : Byte) : Untouched s (s.advancePc.setReg r v) :=
  (untouched_advancePc s).trans (untouched_setReg _ r v)

theorem sameRegsExcept_advancePc_setReg (s : State) (r : RegId) (v : Byte) :
    SameRegsExcept r s (s.advancePc.setReg r v) := fun r' hr =>
  (setReg_reg_other _ v hr).trans (advancePc_reg s r')

end Sys2Proof.Machine

namespace Sys2Proof.Proofs

open Machine

/-- Settles O21: the exchange of Data with the byte, and the frame of `swapAt`. -/
theorem swapResult : Obligations.SwapResult := by
  intro target s
  refine ⟨_, exec_swap target s, swapAt_reg_data _ _ _, fun hwf hpg => ?_, fun hpg => ⟨?_, ?_⟩, ?_, ?_, ?_, ?_, ?_, ?_⟩
  · exact memRead_swapAt_same (s := s.advancePc) hwf hpg target
  · exact (swapAt_reg_data _ _ _).trans (memRead_of_unloaded (s := s.advancePc) hpg target)
  · exact sameBytes_swapAt_of_unloaded (s := s.advancePc) hpg target
  · exact sameBytesExcept_swapAt (cpuPage s) target s.advancePc
  · exact fun r hr => (sameRegsExcept_swapAt _ target _ r hr).trans (advancePc_reg s r)
  · exact (swapAt_pc _ _ _).trans (advancePc_pc_eq s)
  · exact swapAt_flag _ _ _
  · exact (sameHostState_setPc s _).trans (sameHostState_swapAt _ target _)
  · exact (sameConstants_setPc s _).trans (sameConstants_swapAt _ target _)

/-- Settles O23: the player goes with the byte, so the mask does too; under the gate the cell is the player's page's. -/
theorem swapExchangesEffectiveValues : Obligations.SwapExchangesEffectiveValues := by
  intro target s t hwf hgate hpg h
  obtain rfl := Outcome_next_inj h
  have hpage : s.advancePc.activePage = cpuPage s := (gate_eq_true_iff s).1 hgate
  have hcell := memRead_swapAt_same (s := s.advancePc) hwf hpg target
  have hdata := swapAt_reg_data (cpuPage s) target s.advancePc
  have hcfg := swapAt_cfg (cpuPage s) target s.advancePc
  by_cases honcell : s.player = .pos (xof target) (yof target)
  · obtain ⟨hplayer, -⟩ := swapAt_of_on_cell (s := s.advancePc) (pg := cpuPage s) honcell
    rw [regEff_of_player hplayer, memReadEff_of_player honcell hpage, regEff_of_player_ne (by simp [honcell]),
      memReadEff_of_player_ne (by simp [hplayer]), hdata, hcell, hcfg]
    exact ⟨rfl, rfl⟩
  · by_cases hondata : s.player = .reg .data
    · obtain ⟨hplayer, hactive⟩ := swapAt_of_on_data (s := s.advancePc) (pg := cpuPage s) (a := target) hondata
      rw [regEff_of_player hondata, memReadEff_of_player hplayer hactive, regEff_of_player_ne (by simp [hplayer]),
        memReadEff_of_player_ne honcell, hdata, hcell, hcfg]
      exact ⟨rfl, rfl⟩
    · obtain ⟨hplayer, -⟩ := swapAt_of_elsewhere (s := s.advancePc) (pg := cpuPage s) honcell hondata
      rw [regEff_of_player_ne (by rwa [hplayer]), memReadEff_of_player_ne honcell, regEff_of_player_ne hondata,
        memReadEff_of_player_ne (by rwa [hplayer]), hdata, hcell]
      exact ⟨rfl, rfl⟩

/-- Settles O24: the CPU page is the same for both, and the exchange and the player's way are each their own inverse. -/
theorem swapTwiceRestores : Obligations.SwapTwiceRestores := by
  intro target s t u hwf hgate hpg h h'
  have hpage : s.advancePc.activePage = cpuPage s := (gate_eq_true_iff s).1 hgate
  obtain rfl := Outcome_next_inj h
  obtain rfl := Outcome_next_inj h'
  have hsame : cpuPage (swapAt (cpuPage s) target s.advancePc) = cpuPage s := cpuPage_swapAt _ target s.advancePc
  rw [hsame]
  exact ⟨sameBytes_swapAt_twice (s := s.advancePc) hwf hpg target, sameRegs_swapAt_twice (s := s.advancePc) hwf hpg target,
    samePlace_swapAt_twice hpage target⟩

/-- Settles O16: the advance is `advanced`, which carries from the last row; a jump and a trigger write their target. -/
theorem pcAdvanceSaturates : Obligations.PcAdvanceSaturates :=
  ⟨advancePc_pc_eq, fun s _ hx hpc => by rw [advancePc_pc_eq, hpc, advanced_last_row hx],
    fun _ _ => ⟨_, rfl, rfl⟩, fun s target => redirect_pc target s⟩

/-- Settles O17: two writes of `pc`. -/
theorem jumpResult : Obligations.JumpResult := fun target s =>
  ⟨_, rfl, rfl, fun r => (setPc_reg _ target r).trans (advancePc_reg s r),
    (untouched_advancePc s).trans (untouched_setPc _ target)⟩

/-- Settles O18: each jump writes `pc` alone, by its condition on the Compare register. -/
theorem conditionalJumpResults : Obligations.ConditionalJumpResults := by
  intro target s
  refine ⟨_, _, _, rfl, rfl, rfl, ?_, ?_, ?_, jumpIf_reg _ target s, untouched_jumpIf _ target s, jumpIf_reg _ target s,
    untouched_jumpIf _ target s, jumpIf_reg _ target s, untouched_jumpIf _ target s⟩
  · simp only [jumpIf_pc_eq, takenEqual_iff]
  · simp only [jumpIf_pc_eq, takenLess_iff]
  · simp only [jumpIf_pc_eq, takenGreater_iff]

/-- Settles O19: the three values by the unsigned comparison, and the frame of a register write. -/
theorem compareResult : Obligations.CompareResult := by
  intro v s
  refine ⟨_, rfl, fun heq => ?_, fun hlt => ?_, fun hgt => ?_, ?_, sameRegsExcept_advancePc_setReg s .compare _,
    untouched_advancePc_setReg s .compare _⟩
  · rw [setReg_reg_same, compareValue, if_pos heq]
  · rw [setReg_reg_same, compareValue_of_lt hlt]
  · rw [setReg_reg_same, compareValue_of_gt hgt]
  · rw [setReg_pc, advancePc_pc_eq]

/-- Settles O20: the sum of two bytes, and the frame of a register write. -/
theorem addResult : Obligations.AddResult := by
  intro v s
  refine ⟨_, rfl, ?_, ?_, sameRegsExcept_advancePc_setReg s .data _, untouched_advancePc_setReg s .data _⟩
  · rw [setReg_reg_same, BitVec.toNat_add]
  · rw [setReg_pc, advancePc_pc_eq]

/-- Settles O22: the three ways of the player. -/
theorem swapCarriesThePlayer : Obligations.SwapCarriesThePlayer := fun target s =>
  ⟨_, exec_swap target s, swapAt_of_on_cell (s := s.advancePc), swapAt_of_on_data (s := s.advancePc),
    swapAt_of_elsewhere (s := s.advancePc)⟩

/-- Settles O25: the switch after the advance when enabled, the advance alone when not. -/
theorem pageResult : Obligations.PageResult := by
  intro v s
  by_cases henabled : s.cfg.pageSwitchEnabled = true
  · refine ⟨_, exec_page_of_enabled henabled v, fun _ => ⟨rfl, rfl, rfl⟩, fun hdisabled => ?_, advancePc_pc_eq s, rfl,
      fun r hr => ?_, fun _ _ => rfl, (sameHostState_setPc s _).trans (sameHostState_switchPage v _),
      (sameConstants_setPc s _).trans (sameConstants_switchPage v _)⟩
    · simp [henabled] at hdisabled
    · exact sameRegsExcept_advancePc_setReg s .page v r hr
  · exact ⟨_, exec_page_of_disabled henabled v, fun h => absurd h henabled, fun _ => ⟨advancePc_reg s, rfl, rfl⟩,
      advancePc_pc_eq s, rfl, fun r _ => advancePc_reg s r, fun _ _ => rfl, sameHostState_setPc s _,
      sameConstants_setPc s _⟩

/-- Settles O26: the Page register under the player reads with the mask, which `v` has not. -/
theorem pageUnderThePlayerClosesTheGate : Obligations.PageUnderThePlayerClosesTheGate := by
  intro v s t henabled hplayer hclear h
  obtain rfl := Outcome_next_inj ((exec_page_of_enabled henabled v).symm.trans h)
  have hcpu : cpuPage (switchPage v s.advancePc) = v ||| playerMask s.cfg :=
    regEff_of_player (s := switchPage v s.advancePc) (r := .page) hplayer
  refine ⟨rfl, hcpu, Bool.eq_false_iff.2 fun hgate => ?_⟩
  have hpage : v = v ||| playerMask s.cfg := ((gate_eq_true_iff _).1 hgate).trans hcpu
  exact or_playerMask_ne hclear hpage.symm

/-- Settles O27. -/
theorem noneChangesNothing : Obligations.NoneChangesNothing := fun _ _ => rfl

/-- Settles O28: under the stored view no instruction but Swap reads the player. -/
theorem resultsIgnoreThePlayer : Obligations.ResultsIgnoreThePlayer := by
  intro i s t p hview hswap h
  have hread (r : RegId) : regOperand { s with player := p } r = regOperand s r :=
    (regOperand_of_stored (s := { s with player := p }) hview r).trans (regOperand_of_stored hview r).symm
  cases i with
  | add v =>
    obtain rfl := Outcome_next_inj h
    rw [← hread .data]
    rfl
  | compare v =>
    obtain rfl := Outcome_next_inj h
    rw [← hread .data]
    rfl
  | jumpEqual target =>
    obtain rfl := Outcome_next_inj h
    rw [← hread .compare, ← jumpIf_setPlayer]
    rfl
  | jumpGreater target =>
    obtain rfl := Outcome_next_inj h
    rw [← hread .compare, ← jumpIf_setPlayer]
    rfl
  | jump target =>
    obtain rfl := Outcome_next_inj h
    rfl
  | jumpLess target =>
    obtain rfl := Outcome_next_inj h
    rw [← hread .compare, ← jumpIf_setPlayer]
    rfl
  | page v =>
    by_cases henabled : s.cfg.pageSwitchEnabled = true
    · obtain rfl := Outcome_next_inj ((exec_page_of_enabled henabled v).symm.trans h)
      exact exec_page_of_enabled (s := { s with player := p }) henabled v
    · obtain rfl := Outcome_next_inj ((exec_page_of_disabled henabled v).symm.trans h)
      exact exec_page_of_disabled (s := { s with player := p }) henabled v
  | swap target => exact absurd rfl (hswap target)
  | noneOp op =>
    obtain rfl := Outcome_next_inj h
    rfl

end Sys2Proof.Proofs
end

section
/-! The host's action before the CPU's step, 55_host_interface.md R201 to R216: what phases 1 and 2 leave, and when a
trigger has fired. -/

namespace Sys2Proof.Machine

/-- The player is at a grid coordinate (10_state.md R30). -/
def State.PlayerInGrid (s : State) : Prop := ∃ x y, s.player = .pos x y

theorem not_playerInGrid_of_reg {s : State} {r : RegId} (hplayer : s.player = .reg r) : ¬s.PlayerInGrid := by
  rintro ⟨x, y, hpos⟩
  exact absurd (hpos.symm.trans hplayer) (by simp)

theorem exists_reg_of_not_playerInGrid {s : State} (hout : ¬s.PlayerInGrid) : ∃ r, s.player = .reg r := by
  cases hplayer : s.player with
  | pos x y => exact absurd ⟨x, y, hplayer⟩ hout
  | reg r => exact ⟨r, rfl⟩

section

variable (a : Action) (s : State)

/-! Phase 1 changes the player and the active page at most. -/

theorem performAction_regs : (performAction a s).1.regs = s.regs := by
  obtain ⟨p, pg, h⟩ := performAction_place a s
  rw [h]

theorem performAction_memory : (performAction a s).1.memory = s.memory := by
  obtain ⟨p, pg, h⟩ := performAction_place a s
  rw [h]

theorem performAction_cfg : (performAction a s).1.cfg = s.cfg := by
  obtain ⟨p, pg, h⟩ := performAction_place a s
  rw [h]

theorem performAction_flag : (performAction a s).1.pageInstrExecuted = s.pageInstrExecuted := by
  obtain ⟨p, pg, h⟩ := performAction_place a s
  rw [h]

theorem performAction_endOfLevel : (performAction a s).1.endOfLevel = s.endOfLevel := by
  obtain ⟨p, pg, h⟩ := performAction_place a s
  rw [h]

theorem performAction_reg (r : RegId) : (performAction a s).1.reg r = s.reg r := by
  obtain ⟨p, pg, h⟩ := performAction_place a s
  rw [h]
  cases r <;> rfl

/-! On which side of the grid and the registers the player is (R30, R210). -/

theorem gridMove_player_eq_pos (d : Dir) (x y : Byte) (hplayer : s.player = .pos x y) :
    ∃ cx cy, (gridMove d x y s).1.player = .pos cx cy := by
  rcases gridMove_cases d x y s with h | ⟨cx, cy, -, -, h⟩ <;> rw [h]
  · exact ⟨x, y, hplayer⟩
  · exact ⟨cx, cy, rfl⟩

theorem registerMove_player_eq_reg (d : Dir) (r : RegId) (hplayer : s.player = .reg r) :
    ∃ dest, (registerMove d r s).player = .reg dest := by
  rcases registerMove_cases d r s with h | ⟨dest, -, -, h⟩ <;> rw [h]
  · exact ⟨r, hplayer⟩
  · exact ⟨dest, rfl⟩

theorem rotatePage_player : (rotatePage s).player = s.player := by
  rcases rotatePage_cases s with h | ⟨_, _, c, -, -, -, h⟩ <;> rw [h]

theorem performAction_move_of_reg {s : State} {r : RegId} (d : Dir) (hplayer : s.player = .reg r) :
    performAction (.move d) s = (registerMove d r s, .elsewhere) := by
  simp only [performAction, hplayer]

theorem performAction_rotatePage : performAction .rotatePage s = (rotatePage s, .elsewhere) := rfl

/-- No action takes the player between the grid and the registers (R210). -/
theorem playerInGrid_performAction_iff : (performAction a s).1.PlayerInGrid ↔ s.PlayerInGrid := by
  unfold State.PlayerInGrid
  cases a with
  | rotatePage => rw [performAction_rotatePage, rotatePage_player]
  | move d =>
    cases hplayer : s.player with
    | pos x y => simpa [performAction_move_of_pos d hplayer] using gridMove_player_eq_pos s d x y hplayer
    | reg r =>
      obtain ⟨dest, hdest⟩ := registerMove_player_eq_reg s d r hplayer
      simp [performAction_move_of_reg d hplayer, hdest]

/-! Phases 1 and 2 together: a trigger adds its mark and its effect. -/

/-- The state before the CPU's step is the state after the action, or a fired trigger's effect on that state with the
trigger marked. -/
theorem beforeCpuStep_eq_or_fired :
    beforeCpuStep a s = (performAction a s).1 ∨
    ∃ e pg key, beforeCpuStep a s =
      applyEffect e { (performAction a s).1 with memory := s.memory.modify pg (Page.markTriggered key) } := by
  rcases beforeCpuStep_cases a s with h | ⟨x, y, trigger, -, -, -, -, h⟩
  · exact Or.inl h
  · rw [performAction_memory] at h
    exact Or.inr ⟨_, _, _, h⟩

theorem beforeCpuStep_player : (beforeCpuStep a s).player = (performAction a s).1.player := by
  rcases beforeCpuStep_eq_or_fired a s with h | ⟨e, pg, key, h⟩ <;> rw [h]
  rw [applyEffect_player]

theorem playerInGrid_beforeCpuStep_iff : (beforeCpuStep a s).PlayerInGrid ↔ s.PlayerInGrid := by
  rw [State.PlayerInGrid, beforeCpuStep_player]
  exact playerInGrid_performAction_iff a s

theorem beforeCpuStep_cfg : (beforeCpuStep a s).cfg = s.cfg := by
  rcases beforeCpuStep_eq_or_fired a s with h | ⟨e, pg, key, h⟩ <;> rw [h]
  · exact performAction_cfg a s
  · rw [applyEffect_cfg]
    exact performAction_cfg a s

theorem beforeCpuStep_flag : (beforeCpuStep a s).pageInstrExecuted = s.pageInstrExecuted := by
  rcases beforeCpuStep_eq_or_fired a s with h | ⟨e, pg, key, h⟩ <;> rw [h]
  · exact performAction_flag a s
  · rw [applyEffect_pageInstrExecuted]
    exact performAction_flag a s

theorem beforeCpuStep_reg_page : (beforeCpuStep a s).reg .page = s.reg .page := by
  rcases beforeCpuStep_eq_or_fired a s with h | ⟨e, pg, key, h⟩ <;> rw [h]
  · exact performAction_reg a s .page
  · rw [applyEffect_reg_page]
    exact performAction_reg a s .page

theorem sameBytes_beforeCpuStep : SameBytes s (beforeCpuStep a s) := by
  rcases beforeCpuStep_eq_or_fired a s with h | ⟨e, pg, key, h⟩ <;> rw [h]
  · exact sameBytes_of_memory_eq (performAction_memory a s)
  · exact fun pg' a' => (memRead_congr (t := applyEffect e _) (applyEffect_memory e _) pg' a').trans
      (memRead_markTriggered s pg key pg' a')

theorem beforeCpuStep_inv {s : State} (hwf : s.inv) : (beforeCpuStep a s).inv := by
  unfold State.inv
  rcases beforeCpuStep_eq_or_fired a s with h | ⟨e, pg, key, h⟩ <;> rw [h]
  · rwa [performAction_memory]
  · rw [applyEffect_memory]
    exact markTriggered_wf pg key hwf

/-! The constants. -/

theorem sameConstants_redirect (target : Addr) : SameConstants s (redirect target s) := by
  unfold redirect
  split
  · exact ((sameConstants_setReg s .data _).trans (sameConstants_setReg _ .compare _)).trans (sameConstants_setPc _ target)
  · exact sameConstants_setPc s target

theorem sameConstants_applyEffect (e : Effect) : SameConstants s (applyEffect e s) := by
  cases e with
  | setProgramCounter target => exact sameConstants_redirect s target
  | endOfLevel => exact sameConstants_of_regs_eq rfl rfl rfl
  | message text => exact sameConstants_of_regs_eq rfl rfl rfl

theorem sameConstants_beforeCpuStep : SameConstants s (beforeCpuStep a s) := by
  rcases beforeCpuStep_eq_or_fired a s with h | ⟨e, pg, key, h⟩ <;> rw [h]
  · exact sameConstants_of_regs_eq (performAction_cfg a s) (congrArg Memory.ids (performAction_memory a s))
      (performAction_regs a s)
  · have hmarked : SameConstants s
        { (performAction a s).1 with memory := s.memory.modify pg (Page.markTriggered key) } :=
      sameConstants_of_regs_eq (performAction_cfg a s) (markTriggered_ids s.memory pg key) (performAction_regs a s)
    exact hmarked.trans (sameConstants_applyEffect _ e)

end

/-! What an effect writes, and that it is a fired trigger's (R216). -/

theorem redirect_eq_of_resets {s : State} (hresets : s.cfg.triggerResetsRegs = true) (target : Addr) :
    redirect target s =
      ((s.setReg .data s.cfg.triggerResetData).setReg .compare s.cfg.triggerResetCompare).setPc target :=
  if_pos hresets

theorem redirect_eq_of_keeps {s : State} (hkeeps : ¬s.cfg.triggerResetsRegs = true) (target : Addr) :
    redirect target s = s.setPc target :=
  if_neg hkeeps

/-- An effect that writes a register is a SetProgramCounter under the reset rule, and the values are the configured ones. -/
theorem applyEffect_reg_cases (e : Effect) (s : State) :
    (∀ r, (applyEffect e s).reg r = s.reg r) ∨
    ∃ target, e = .setProgramCounter target ∧ s.cfg.triggerResetsRegs = true ∧
      (applyEffect e s).reg .data = s.cfg.triggerResetData ∧
      (applyEffect e s).reg .compare = s.cfg.triggerResetCompare := by
  cases e with
  | setProgramCounter target =>
    by_cases hresets : s.cfg.triggerResetsRegs = true
    · refine Or.inr ⟨target, rfl, hresets, ?_, ?_⟩ <;> rw [applyEffect, redirect_eq_of_resets hresets] <;> rfl
    · exact Or.inl fun r => by rw [applyEffect, redirect_eq_of_keeps hresets, setPc_reg]
  | endOfLevel => exact Or.inl fun r => by cases r <;> rfl
  | message text => exact Or.inl fun r => by cases r <;> rfl

/-- An effect that changes the end flag sets it, and is an EndOfLevel or the message WIN. -/
theorem applyEffect_endOfLevel_cases (e : Effect) (s : State) :
    (applyEffect e s).endOfLevel = s.endOfLevel ∨
    ((applyEffect e s).endOfLevel = true ∧ (e = .endOfLevel ∨ e = .message "WIN")) := by
  cases e with
  | setProgramCounter target => exact Or.inl (redirect_endOfLevel target s)
  | endOfLevel => exact Or.inr ⟨rfl, Or.inl rfl⟩
  | message text =>
    by_cases hwin : text = "WIN"
    · subst hwin
      exact Or.inr ⟨Bool.or_true _, Or.inr rfl⟩
    · exact Or.inl (by simp [applyEffect, hwin])

/-- For the step's action: nothing but the player's place has changed before the CPU's step, or a trigger has fired. -/
theorem beforeCpuStep_eq_or_fires {s : State} {a : Action} {rest : List HostInput}
    (hin : s.inputs = .makeMove a :: rest) :
    beforeCpuStep a { s with inputs := rest } = (performAction a { s with inputs := rest }).1 ∨
    ∃ e m, FiresTrigger s e ∧ beforeCpuStep a { s with inputs := rest } =
      applyEffect e { (performAction a { s with inputs := rest }).1 with memory := m } := by
  rcases beforeCpuStep_cases a { s with inputs := rest } with h | ⟨x, y, trigger, hlanding, hplayer, hfind, hactive, h⟩
  · exact Or.inl h
  · rw [triggerTable_congr (performAction_memory a _)] at hfind
    exact Or.inr ⟨trigger.effect, _, ⟨a, rest, x, y, trigger, hin, hlanding, hplayer, hfind, hactive, rfl⟩, h⟩

/-- Before the CPU's step Data and Compare are as they were, or a trigger of the step has reset them. -/
theorem beforeCpuStep_reg_cases {s : State} {a : Action} {rest : List HostInput} (hin : s.inputs = .makeMove a :: rest) :
    (∀ r, (beforeCpuStep a { s with inputs := rest }).reg r = s.reg r) ∨
    ∃ target, FiresTrigger s (.setProgramCounter target) ∧ s.cfg.triggerResetsRegs = true ∧
      (beforeCpuStep a { s with inputs := rest }).reg .data = s.cfg.triggerResetData ∧
      (beforeCpuStep a { s with inputs := rest }).reg .compare = s.cfg.triggerResetCompare := by
  have haction (r : RegId) : (performAction a { s with inputs := rest }).1.reg r = s.reg r := performAction_reg a _ r
  have hcfg : (performAction a { s with inputs := rest }).1.cfg = s.cfg := performAction_cfg a _
  rcases beforeCpuStep_eq_or_fires hin with h | ⟨e, m, hfires, h⟩ <;> rw [h]
  · exact Or.inl haction
  · rcases applyEffect_reg_cases e { (performAction a { s with inputs := rest }).1 with memory := m } with
      hkept | ⟨target, rfl, hresets, hdata, hcompare⟩
    · exact Or.inl fun r => (hkept r).trans (haction r)
    · rw [hcfg] at hresets hdata hcompare
      exact Or.inr ⟨target, hfires, hresets, hdata, hcompare⟩

/-- Before the CPU's step the end flag is as it was, or a trigger of the step has set it. -/
theorem beforeCpuStep_endOfLevel_cases {s : State} {a : Action} {rest : List HostInput}
    (hin : s.inputs = .makeMove a :: rest) :
    (beforeCpuStep a { s with inputs := rest }).endOfLevel = s.endOfLevel ∨
    ((beforeCpuStep a { s with inputs := rest }).endOfLevel = true ∧
      ∃ e, FiresTrigger s e ∧ (e = .endOfLevel ∨ e = .message "WIN")) := by
  have haction : (performAction a { s with inputs := rest }).1.endOfLevel = s.endOfLevel := performAction_endOfLevel a _
  rcases beforeCpuStep_eq_or_fires hin with h | ⟨e, m, hfires, h⟩ <;> rw [h]
  · exact Or.inl haction
  · rcases applyEffect_endOfLevel_cases e { (performAction a { s with inputs := rest }).1 with memory := m } with
      hkept | ⟨hset, he⟩
    · exact Or.inl (hkept.trans haction)
    · exact Or.inr ⟨hset, e, hfires, he⟩

end Sys2Proof.Machine
end

section
/-! What one step changes and who changes it, 10_state.md sections 2, 3 and 5, 55_host_interface.md R210, R223 and R224. -/

namespace Sys2Proof.Machine

/-- A step that goes on: without an action it changes the memory by a patch at most, `visited` and the inputs; with one it
is what the action leaves, or an instruction executed there. -/
theorem step_action_cases {s t : State} (h : step s = .next t) :
    (∃ m v rest, t = { s with memory := m, visited := v, inputs := rest } ∧
      (m = s.memory ∨ ∃ pg d rest', s.inputs = .patch pg d :: rest' ∧ m = (patchPage s pg d).memory)) ∨
    ∃ a rest, s.inputs = .makeMove a :: rest ∧
      (t = beforeCpuStep a { s with inputs := rest } ∨
        ∃ i, Executes s (beforeCpuStep a { s with inputs := rest }) i ∧
          exec i (beforeCpuStep a { s with inputs := rest }) = .next t) := by
  rcases step_cases h with ⟨-, rfl⟩ | ⟨pg, d, rest, hin, rfl⟩ | ⟨pg, rest, -, rfl⟩ | ⟨pg, rest, -, rfl⟩ |
    ⟨a, rest, hin, -, ht⟩ | ⟨a, rest, hin, hgate, ht⟩
  · exact Or.inl ⟨_, _, _, rfl, Or.inl rfl⟩
  · exact Or.inl ⟨_, _, _, rfl, Or.inr ⟨pg, d, rest, hin, rfl⟩⟩
  · exact Or.inl ⟨_, _, _, rfl, Or.inl rfl⟩
  · exact Or.inl ⟨_, _, _, rfl, Or.inl rfl⟩
  · exact Or.inr ⟨a, rest, hin, Or.inl ht⟩
  · exact Or.inr ⟨a, rest, hin, Or.inr ⟨_, ⟨a, rest, hin, rfl, hgate, rfl⟩, ht⟩⟩

/-! What an instruction writes, one lemma per part of the state. -/

section

variable {i : Instr} {u t : State} (h : exec i u = .next t)
include h

theorem exec_sameConstants : SameConstants u t := by
  rcases exec_cases h with ⟨v, -, rfl⟩ | ⟨v, -, rfl⟩ | ⟨v, -, -, rfl⟩ | ⟨target, -, rfl⟩ | ⟨pc, rfl⟩
  · exact (untouched_advancePc_setReg u .data _).sameConstants
  · exact (untouched_advancePc_setReg u .compare _).sameConstants
  · exact (sameConstants_setPc u _).trans (sameConstants_switchPage v _)
  · exact (sameConstants_setPc u _).trans (sameConstants_swapAt _ target _)
  · exact sameConstants_setPc u pc

theorem exec_inv (hwf : u.inv) : t.inv := by
  rcases exec_cases h with ⟨v, -, rfl⟩ | ⟨v, -, rfl⟩ | ⟨v, -, -, rfl⟩ | ⟨target, -, rfl⟩ | ⟨pc, rfl⟩
  · rwa [State.inv, setReg_memory]
  · rwa [State.inv, setReg_memory]
  · exact hwf
  · exact swapAt_inv (s := u.advancePc) hwf _ target
  · exact hwf

theorem exec_endOfLevel : t.endOfLevel = u.endOfLevel := by
  rcases exec_cases h with ⟨v, -, rfl⟩ | ⟨v, -, rfl⟩ | ⟨v, -, -, rfl⟩ | ⟨target, -, rfl⟩ | ⟨pc, rfl⟩
  · exact setReg_endOfLevel _ .data _
  · exact setReg_endOfLevel _ .compare _
  · rfl
  · exact swapAt_endOfLevel _ target _
  · rfl

/-- An enabled Page sets the flag and writes the Page register; nothing else does either. -/
theorem exec_page_effect_cases :
    (t.pageInstrExecuted = u.pageInstrExecuted ∧ t.reg .page = u.reg .page) ∨
    ∃ v, i = .page v ∧ u.cfg.pageSwitchEnabled = true ∧ t.pageInstrExecuted = true ∧ t.reg .page = v := by
  rcases exec_cases h with ⟨v, -, rfl⟩ | ⟨v, -, rfl⟩ | ⟨v, hi, henabled, rfl⟩ | ⟨target, -, rfl⟩ | ⟨pc, rfl⟩
  · exact Or.inl ⟨setReg_pageInstrExecuted _ .data _, rfl⟩
  · exact Or.inl ⟨setReg_pageInstrExecuted _ .compare _, rfl⟩
  · exact Or.inr ⟨v, hi, henabled, rfl, rfl⟩
  · exact Or.inl ⟨swapAt_flag _ target _, swapAt_reg_page _ target _⟩
  · exact Or.inl ⟨rfl, rfl⟩

theorem exec_data_cases : t.reg .data = u.reg .data ∨ (∃ v, i = .add v) ∨ ∃ target, i = .swap target := by
  rcases exec_cases h with ⟨v, hi, rfl⟩ | ⟨v, -, rfl⟩ | ⟨v, -, -, rfl⟩ | ⟨target, hi, rfl⟩ | ⟨pc, rfl⟩
  · exact Or.inr (Or.inl ⟨v, hi⟩)
  · exact Or.inl rfl
  · exact Or.inl rfl
  · exact Or.inr (Or.inr ⟨target, hi⟩)
  · exact Or.inl rfl

theorem exec_compare_cases : t.reg .compare = u.reg .compare ∨ ∃ v, i = .compare v := by
  rcases exec_cases h with ⟨v, -, rfl⟩ | ⟨v, hi, rfl⟩ | ⟨v, -, -, rfl⟩ | ⟨target, -, rfl⟩ | ⟨pc, rfl⟩
  · exact Or.inl rfl
  · exact Or.inr ⟨v, hi⟩
  · exact Or.inl rfl
  · exact Or.inl (swapAt_reg_compare _ target _)
  · exact Or.inl rfl

/-- Only Swap stores a byte and only Swap moves the player. -/
theorem exec_swap_effect_cases :
    (t.memory = u.memory ∧ t.player = u.player) ∨
    ∃ target, i = .swap target ∧ t = swapAt (cpuPage u) target u.advancePc := by
  rcases exec_cases h with ⟨v, -, rfl⟩ | ⟨v, -, rfl⟩ | ⟨v, -, -, rfl⟩ | ⟨target, hi, rfl⟩ | ⟨pc, rfl⟩
  · exact Or.inl ⟨setReg_memory _ .data _, setReg_player _ .data _⟩
  · exact Or.inl ⟨setReg_memory _ .compare _, setReg_player _ .compare _⟩
  · exact Or.inl ⟨rfl, rfl⟩
  · exact Or.inr ⟨target, hi, rfl⟩
  · exact Or.inl ⟨rfl, rfl⟩

end

/-- A step leaves the player on its side, or runs a Swap where phases 1 and 2 have left it on its side. -/
theorem step_playerInGrid_cases {s t : State} (h : step s = .next t) :
    (t.PlayerInGrid ↔ s.PlayerInGrid) ∨
    ∃ u target, Executes s u (.swap target) ∧ (u.PlayerInGrid ↔ s.PlayerInGrid) ∧
      t = swapAt (cpuPage u) target u.advancePc := by
  rcases step_action_cases h with ⟨m, v, rest, rfl, -⟩ | ⟨a, rest, -, rfl | ⟨i, hexecutes, hexec⟩⟩
  · exact Or.inl Iff.rfl
  · exact Or.inl (playerInGrid_beforeCpuStep_iff a _)
  · have hbefore : (beforeCpuStep a { s with inputs := rest }).PlayerInGrid ↔ s.PlayerInGrid :=
      playerInGrid_beforeCpuStep_iff a _
    rcases exec_swap_effect_cases hexec with ⟨-, hkept⟩ | ⟨target, rfl, ht⟩
    · left
      rwa [State.PlayerInGrid, hkept]
    · exact Or.inr ⟨_, target, hexecutes, hbefore, ht⟩

/-- A Swap that takes the player off the grid took it from the swapped cell to Data. -/
theorem swapAt_player_pos_to_reg {pg : PageId} {a : Addr} {s : State} {x y : Byte} {r : RegId}
    (hfrom : s.player = .pos x y) (hto : (swapAt pg a s).player = .reg r) :
    s.player = .pos (xof a) (yof a) ∧ r = .data := by
  by_cases hcell : s.player = .pos (xof a) (yof a)
  · rw [(swapAt_of_on_cell hcell).1] at hto
    injection hto with hr
    exact ⟨hcell, hr.symm⟩
  · have hstay := (swapAt_of_elsewhere (pg := pg) hcell (by simp [hfrom])).1
    rw [hstay, hfrom] at hto
    cases hto

/-- A Swap that takes the player into the grid took it from Data to the swapped cell. -/
theorem swapAt_player_reg_to_pos {pg : PageId} {a : Addr} {s : State} {x y : Byte} {r : RegId}
    (hfrom : s.player = .reg r) (hto : (swapAt pg a s).player = .pos x y) :
    s.player = .reg .data ∧ x = xof a ∧ y = yof a := by
  by_cases hdata : s.player = .reg .data
  · rw [(swapAt_of_on_data hdata).1] at hto
    injection hto with hx hy
    exact ⟨hdata, hx.symm, hy.symm⟩
  · have hstay := (swapAt_of_elsewhere (pg := pg) (a := a) (by simp [hfrom]) hdata).1
    rw [hstay, hfrom] at hto
    cases hto

/-- The only cell a Swap changes is its own, of a loaded page, and it then holds the old Data. -/
theorem memRead_swapAt_of_ne {s : State} {pg pg' : PageId} {a a' : Addr} (hwf : s.inv)
    (hne : memRead (swapAt pg a s) pg' a' ≠ memRead s pg' a') :
    pg' = pg ∧ a' = a ∧ memRead (swapAt pg a s) pg' a' = s.reg .data := by
  have hhere : pg' = pg ∧ a' = a := not_not.mp fun hother => hne (sameBytesExcept_swapAt pg a s pg' a' hother)
  obtain ⟨rfl, rfl⟩ := hhere
  have hpg : pg' ∈ s.memory.ids := not_not.mp fun hpg => hne (sameBytes_swapAt_of_unloaded hpg a' pg' a')
  exact ⟨rfl, rfl, memRead_swapAt_same hwf hpg a'⟩

theorem page?_patchPage_other {pg pg' : PageId} (hne : pg' ≠ pg) (s : State) (d : List Hunk) :
    (patchPage s pg d).memory.page? pg' = s.memory.page? pg' :=
  (Memory.page?_modify s.memory pg pg' (fun p => { p with grid := patch p.grid d }) fun _ => rfl).trans (if_neg hne)

theorem memRead_patchPage_other {pg pg' : PageId} (hne : pg' ≠ pg) (s : State) (d : List Hunk) (a : Addr) :
    memRead (patchPage s pg d) pg' a = memRead s pg' a := by
  rw [memRead, memRead, page?_patchPage_other hne]

end Sys2Proof.Machine

namespace Sys2Proof.Proofs

open Machine

/-- Settles O33: a patch, a trigger's mark and a Swap each keep the canonical form, and nothing else writes memory. -/
theorem stepKeepsMemoryCanonical : Obligations.StepKeepsMemoryCanonical := by
  intro s t hwf h
  rcases step_action_cases h with ⟨m, v, rest, rfl, rfl | ⟨pg, d, -, -, rfl⟩⟩ | ⟨a, rest, -, rfl | ⟨i, -, hexec⟩⟩
  · exact hwf
  · exact patchPage_wf pg d hwf
  · exact beforeCpuStep_inv a (s := { s with inputs := rest }) hwf
  · exact exec_inv hexec (beforeCpuStep_inv a (s := { s with inputs := rest }) hwf)

/-- Settles O36: every phase of a step keeps the constants. -/
theorem stepKeepsConstants : Obligations.StepKeepsConstants := by
  intro s t h
  rcases step_action_cases h with ⟨m, v, rest, rfl, rfl | ⟨pg, d, -, -, rfl⟩⟩ | ⟨a, rest, -, rfl | ⟨i, -, hexec⟩⟩
  · exact SameConstants.refl s
  · exact sameConstants_of_regs_eq rfl (patchPage_ids s pg d) rfl
  · exact sameConstants_beforeCpuStep a { s with inputs := rest }
  · exact SameConstants.trans (sameConstants_beforeCpuStep a { s with inputs := rest }) (exec_sameConstants hexec)

/-- Settles O37: before the instruction the flag is as it was, and of the instructions an enabled Page alone sets it. -/
theorem pageFlagSetOnlyByPage : Obligations.PageFlagSetOnlyByPage := by
  intro s t h
  suffices hflag : t.pageInstrExecuted = s.pageInstrExecuted ∨
      t.pageInstrExecuted = true ∧ ∃ u v, Executes s u (.page v) ∧ s.cfg.pageSwitchEnabled = true by
    rcases hflag with hflag | ⟨hset, hpage⟩
    · exact ⟨fun hs => hflag.trans hs, fun hs ht => by rw [hflag, hs] at ht; cases ht⟩
    · exact ⟨fun _ => hset, fun _ _ => hpage⟩
  rcases step_action_cases h with ⟨m, v, rest, rfl, -⟩ | ⟨a, rest, -, rfl | ⟨i, hexecutes, hexec⟩⟩
  · exact Or.inl rfl
  · exact Or.inl (beforeCpuStep_flag a _)
  · rcases exec_page_effect_cases hexec with ⟨hflag, -⟩ | ⟨v, rfl, henabled, hset, -⟩
    · exact Or.inl (hflag.trans (beforeCpuStep_flag a _))
    · rw [beforeCpuStep_cfg] at henabled
      exact Or.inr ⟨hset, _, v, hexecutes, henabled⟩

/-- Settles O38: before the instruction the Page register is as it was; an enabled Page alone writes it. -/
theorem pageRegisterWrittenOnlyByPage : Obligations.PageRegisterWrittenOnlyByPage := by
  intro s t h hne
  rcases step_action_cases h with ⟨m, v, rest, rfl, -⟩ | ⟨a, rest, -, rfl | ⟨i, hexecutes, hexec⟩⟩
  · exact absurd rfl hne
  · exact absurd (beforeCpuStep_reg_page a { s with inputs := rest }) hne
  · rcases exec_page_effect_cases hexec with ⟨-, hkept⟩ | ⟨v, rfl, henabled, -, hv⟩
    · exact absurd (hkept.trans (beforeCpuStep_reg_page a { s with inputs := rest })) hne
    · rw [beforeCpuStep_cfg] at henabled
      exact ⟨_, v, hexecutes, henabled, hv⟩

/-- Settles O39: a register's writer is the instruction, or the trigger that reset it before the instruction. -/
theorem dataAndCompareWriters : Obligations.DataAndCompareWriters := by
  intro s t h
  rcases step_action_cases h with ⟨m, v, rest, rfl, -⟩ | ⟨a, rest, hin, ht⟩
  · exact ⟨fun hne => absurd rfl hne, fun hne => absurd rfl hne⟩
  · have hdata : t.reg .data = (beforeCpuStep a { s with inputs := rest }).reg .data ∨
        (∃ u v, Executes s u (.add v)) ∨ ∃ u target, Executes s u (.swap target) := by
      rcases ht with rfl | ⟨i, hexecutes, hexec⟩
      · exact Or.inl rfl
      · rcases exec_data_cases hexec with hkept | ⟨v, rfl⟩ | ⟨target, rfl⟩
        · exact Or.inl hkept
        · exact Or.inr (Or.inl ⟨_, v, hexecutes⟩)
        · exact Or.inr (Or.inr ⟨_, target, hexecutes⟩)
    have hcompare : t.reg .compare = (beforeCpuStep a { s with inputs := rest }).reg .compare ∨
        ∃ u v, Executes s u (.compare v) := by
      rcases ht with rfl | ⟨i, hexecutes, hexec⟩
      · exact Or.inl rfl
      · rcases exec_compare_cases hexec with hkept | ⟨v, rfl⟩
        · exact Or.inl hkept
        · exact Or.inr ⟨_, v, hexecutes⟩
    rcases beforeCpuStep_reg_cases hin with hbefore | ⟨target, hfires, hresets, hresetData, hresetCompare⟩
    · refine ⟨fun hne => ?_, fun hne => ?_⟩
      · exact (hdata.resolve_left fun hkept => hne (hkept.trans (hbefore .data))).imp_right Or.inl
      · exact Or.inl (hcompare.resolve_left fun hkept => hne (hkept.trans (hbefore .compare)))
    · refine ⟨fun _ => ?_, fun _ => ?_⟩
      · rcases hdata with hkept | hadd | hswap
        · exact Or.inr (Or.inr ⟨target, hfires, hresets, hkept.trans hresetData⟩)
        · exact Or.inl hadd
        · exact Or.inr (Or.inl hswap)
      · rcases hcompare with hkept | hwriter
        · exact Or.inr ⟨target, hfires, hresets, hkept.trans hresetCompare⟩
        · exact Or.inl hwriter

/-- Settles O40: an action and its triggers store no byte; a Swap stores one, a patch those of its page. -/
theorem storedBytesChangeOnlyBySwapOrPatch : Obligations.StoredBytesChangeOnlyBySwapOrPatch := by
  intro s t pg k hwf h hne
  rcases step_action_cases h with ⟨m, v, rest, rfl, rfl | ⟨pg', d, rest', hin, rfl⟩⟩ | ⟨a, rest, -, ht⟩
  · exact absurd rfl hne
  · have hpg : pg = pg' := not_not.mp fun hother => hne (memRead_patchPage_other hother s d k)
    exact Or.inl ⟨d, rest', hpg ▸ hin⟩
  · have hbefore : memRead (beforeCpuStep a { s with inputs := rest }) pg k = memRead s pg k :=
      sameBytes_beforeCpuStep a _ pg k
    rcases ht with rfl | ⟨i, hexecutes, hexec⟩
    · exact absurd hbefore hne
    · rcases exec_swap_effect_cases hexec with ⟨hmemory, -⟩ | ⟨target, rfl, rfl⟩
      · exact absurd ((memRead_congr hmemory pg k).trans hbefore) hne
      · have hinv := beforeCpuStep_inv a (s := { s with inputs := rest }) hwf
        obtain ⟨rfl, rfl, hstored⟩ := memRead_swapAt_of_ne (s := (beforeCpuStep a _).advancePc) hinv
          fun hkept => hne (hkept.trans hbefore)
        exact Or.inr ⟨_, hexecutes, rfl, hstored⟩

/-- Settles O41: no instruction writes the flag, and an effect that writes it sets it. -/
theorem endOfLevelSetOnlyByTrigger : Obligations.EndOfLevelSetOnlyByTrigger := by
  intro s t h
  suffices hflag : t.endOfLevel = s.endOfLevel ∨
      t.endOfLevel = true ∧ ∃ e, FiresTrigger s e ∧ (e = .endOfLevel ∨ e = .message "WIN") by
    rcases hflag with hflag | ⟨hset, e, ⟨a, rest, x, y, trigger, hin, -, hplayer, hfind, hactive, rfl⟩, he⟩
    · exact ⟨fun hs => hflag.trans hs, fun hs ht => by rw [hflag, hs] at ht; cases ht⟩
    · exact ⟨fun _ => hset, fun _ _ => ⟨a, rest, x, y, trigger, hin, hplayer, hfind, hactive, he⟩⟩
  rcases step_action_cases h with ⟨m, v, rest, rfl, -⟩ | ⟨a, rest, hin, ht⟩
  · exact Or.inl rfl
  · have hkept : t.endOfLevel = (beforeCpuStep a { s with inputs := rest }).endOfLevel := by
      rcases ht with rfl | ⟨i, -, hexec⟩
      · rfl
      · exact exec_endOfLevel hexec
    rw [hkept]
    exact beforeCpuStep_endOfLevel_cases hin

/-- Settles O42: phases 1 and 2 keep the player on its side, and of the instructions Swap alone moves it. -/
theorem playerChangesSidesOnlyBySwap : Obligations.PlayerChangesSidesOnlyBySwap := by
  refine ⟨fun s t x y r h hs ht => ?toRegister, fun s t x y r h hs ht => ?toGrid, fun a s => playerInGrid_beforeCpuStep_iff a s⟩
  case toRegister =>
    have hfrom : s.PlayerInGrid := ⟨x, y, hs⟩
    rcases step_playerInGrid_cases h with hside | ⟨u, target, hexecutes, hside, rfl⟩
    · exact absurd (hside.2 hfrom) (not_playerInGrid_of_reg ht)
    · obtain ⟨x', y', hu⟩ := hside.2 hfrom
      obtain ⟨hcell, hr⟩ := swapAt_player_pos_to_reg (s := u.advancePc) hu ht
      exact ⟨u, target, hexecutes, hcell, hr⟩
  case toGrid =>
    have hfrom : ¬s.PlayerInGrid := not_playerInGrid_of_reg hs
    rcases step_playerInGrid_cases h with hside | ⟨u, target, hexecutes, hside, rfl⟩
    · exact absurd (hside.1 ⟨x, y, ht⟩) hfrom
    · obtain ⟨r', hu⟩ := exists_reg_of_not_playerInGrid fun hu => hfrom (hside.1 hu)
      obtain ⟨hdata, hx, hy⟩ := swapAt_player_reg_to_pos (s := u.advancePc) hu ht
      exact ⟨u, target, hexecutes, hdata, hx, hy⟩

end Sys2Proof.Proofs
end

section
/-! Steps by their input, 40_cpu_step.md R110, 55_host_interface.md R201 and R223, and the states after reset and
construction, 70_reset_and_hazards.md R270. -/

namespace Sys2Proof.Machine

theorem step_of_makeMove {s : State} {a : Action} {rest : List HostInput} (hin : s.inputs = .makeMove a :: rest) :
    step s = cpuStep (beforeCpuStep a { s with inputs := rest }) :=
  step_of_inputs_cons hin

/-! A patch changes the grid of its own page alone. -/

theorem page?_patchPage_same (s : State) (pg : PageId) (d : List Hunk) :
    (patchPage s pg d).memory.page? pg = (s.memory.page? pg).map fun p => { p with grid := patch p.grid d } :=
  (Memory.page?_modify s.memory pg pg (fun p => { p with grid := patch p.grid d }) fun _ => rfl).trans (if_pos rfl)

theorem triggerTable_eq_of_page? {s t : State} {pg : PageId} {f : Page → Page} (hf : ∀ p, (f p).triggers = p.triggers)
    (hpage : t.memory.page? pg = (s.memory.page? pg).map f) : triggerTable t pg = triggerTable s pg := by
  rw [triggerTable, triggerTable, hpage]
  cases s.memory.page? pg with
  | none => rfl
  | some p => exact hf p

theorem triggerTable_patchPage (s : State) (pg : PageId) (d : List Hunk) (pg' : PageId) :
    triggerTable (patchPage s pg d) pg' = triggerTable s pg' := by
  by_cases hpg : pg' = pg
  · subst hpg
    exact triggerTable_eq_of_page? (f := fun p => { p with grid := patch p.grid d }) (fun _ => rfl)
      (page?_patchPage_same s pg' d)
  · rw [triggerTable, triggerTable, page?_patchPage_other hpg]

end Sys2Proof.Machine

namespace Sys2Proof.Proofs

open Machine

/-- Settles O30: the step is the CPU's step after phases 1 and 2, and what it fetches is that decoding. -/
theorem stepRunsTheDecodedInstruction : Obligations.StepRunsTheDecodedInstruction := by
  rintro s u a rest i hin rfl rfl
  rw [step_of_makeMove hin]
  exact ⟨cpuStep_of_gate_open, cpuStep_of_gate_closed⟩

/-- Settles O31: an input that is no action writes one field. -/
theorem stepsWithoutAnAction : Obligations.StepsWithoutAnAction := by
  refine ⟨fun s => step_of_inputs_nil, fun s pg rest hin => ?_, fun s pg rest hin => ?_, fun s pg d rest hin => ?_⟩
  · exact ⟨_, step_of_inputs_cons hin, rfl, s.visited.get_set pg⟩
  · exact ⟨_, step_of_inputs_cons hin, rfl, s.visited.get_clear pg⟩
  · refine ⟨_, step_of_inputs_cons hin, rfl, patchPage_ids _ pg d, triggerTable_patchPage _ pg d,
      fun pg' hother => page?_patchPage_other hother _ d, fun p hp => ?_⟩
    rw [page?_patchPage_same]
    exact congrArg (Option.map _) hp

/-- Settles O34: no page is loaded at reset, and construction takes its pages as they are. -/
theorem resetMeetsTheInvariant : Obligations.ResetMeetsTheInvariant := ⟨reset_memory_canonical, fun _ _ hpages => hpages⟩

/-- Settles O35: each field as `State.launch` sets it. -/
theorem launchIsItsArguments : Obligations.LaunchIsItsArguments :=
  ⟨rfl, rfl, fun _ _ => ⟨rfl, rfl, rfl, rfl, rfl, rfl, rfl, rfl, rfl, rfl, rfl⟩⟩

end Sys2Proof.Proofs
end

section
/-! Placing an instruction, 70_reset_and_hazards.md R273 (log entry 14): the placed bytes are what the next step fetches. -/

namespace Sys2Proof.Machine

/-! A row of stored bytes. -/

/-- Storing a row writes the memory alone. -/
theorem storeRow_eq (s : State) (pg : PageId) (x y : Byte) (bs : List Byte) :
    storeRow s pg x y bs = { s with memory := (storeRow s pg x y bs).memory } := by
  induction bs generalizing s x with
  | nil => rfl
  | cons b bs ih => exact ih (memWrite s pg (pack x y) b) (x + 1)

theorem byte_add_one_add (x : Byte) (k : Nat) : x + 1 + BitVec.ofNat 8 k = x + BitVec.ofNat 8 (k + 1) := by
  rw [Nat.add_comm, BitVec.ofNat_add, BitVec.add_assoc]
  rfl

/-- A cell that none of the row's columns is keeps its byte. -/
theorem memRead_storeRow_other {s : State} {pg : PageId} {x x' y : Byte} {bs : List Byte}
    (hout : ∀ k < bs.length, x + BitVec.ofNat 8 k ≠ x') :
    memRead (storeRow s pg x y bs) pg (pack x' y) = memRead s pg (pack x' y) := by
  induction bs generalizing s x with
  | nil => rfl
  | cons b bs ih =>
    have hfirst : x ≠ x' := by simpa using hout 0 (Nat.succ_pos _)
    rw [storeRow, ih fun k hk => by rw [byte_add_one_add]; exact hout (k + 1) (Nat.succ_lt_succ hk)]
    exact memRead_memWrite_other s b fun hsame => hfirst (cell_eq_of_pack_eq hsame.2).1.symm

/-- A row of at most 256 bytes does not come round to its first cell again. -/
theorem add_one_add_ne_self (x : Byte) {k : Nat} (hk : k < 255) : x + 1 + BitVec.ofNat 8 k ≠ x := by
  rw [byte_add_one_add, ne_eq, add_eq_left, ← BitVec.toNat_inj, BitVec.toNat_ofNat, Nat.mod_eq_of_lt (by omega)]
  exact Nat.succ_ne_zero k

theorem memRead_storeRow {s : State} {pg : PageId} {x y : Byte} {bs : List Byte} (hwf : s.inv)
    (hpg : pg ∈ s.memory.ids) (hlen : bs.length ≤ 256) {k : Nat} {b : Byte} (hb : bs[k]? = some b) :
    memRead (storeRow s pg x y bs) pg (pack (x + BitVec.ofNat 8 k) y) = b := by
  induction bs generalizing s x k with
  | nil => simp at hb
  | cons c bs ih =>
    rw [List.length_cons] at hlen
    rw [storeRow]
    cases k with
    | zero =>
      obtain rfl : c = b := by simpa using hb
      rw [BitVec.add_zero, memRead_storeRow_other fun k hk => add_one_add_ne_self x (by omega)]
      exact memRead_memWrite_same pg _ c hwf hpg
    | succ k =>
      rw [← byte_add_one_add]
      exact ih (memWrite_wf pg _ c hwf) ((memWrite_ids s pg _ c).symm ▸ hpg) (Nat.le_of_succ_le hlen) (by simpa using hb)

/-! The placed state. -/

theorem Memory.mem_ids_ensure (m : Memory) (pg : PageId) : pg ∈ (Memory.ensure m pg).ids := by
  induction m with
  | nil => exact List.mem_singleton.2 rfl
  | cons p m ih =>
    rw [Memory.ensure]
    split_ifs with hid hlt
    · exact hid ▸ List.mem_cons_self
    · exact List.mem_cons_self
    · exact List.mem_cons_of_mem _ ih

theorem placeInstruction_eq (s : State) (bytes : List Byte) :
    placeInstruction s bytes =
      { s with
        pc := loadAddr s.pc
        player := .reg .compare
        activePage := s.reg .page
        memory := (placeInstruction s bytes).memory
        inputs := .makeMove .rotatePage :: s.inputs } :=
  storeRow_eq _ _ _ _ bytes

theorem memRead_placeInstruction {s : State} (hwf : s.inv) {bytes : List Byte} (hlen : bytes.length ≤ 256) {k : Nat}
    {b : Byte} (hb : bytes[k]? = some b) :
    memRead (placeInstruction s bytes) (s.reg .page)
      (pack (xof (loadAddr s.pc) + BitVec.ofNat 8 k) (yof (loadAddr s.pc))) = b :=
  memRead_storeRow (Memory.ensure_wf (s.reg .page) hwf) (Memory.mem_ids_ensure s.memory (s.reg .page)) hlen hb

/-- Two operands fit to the right of the placed opcode cell. -/
theorem xof_loadAddr_le (pc : Addr) : (xof (loadAddr pc)).toNat ≤ 253 := by
  unfold loadAddr
  split
  next hle => exact hle
  next =>
    rw [xof_pack]
    exact Nat.zero_le 253

/-! The step after placing: the action does nothing, and the fetch reads the placed bytes. -/

/-- A RotatePage of a player on a register does nothing, and no trigger follows it (R212). -/
theorem beforeCpuStep_rotatePage_of_reg {s : State} {r : RegId} (hplayer : s.player = .reg r) :
    beforeCpuStep .rotatePage s = s := by
  have hstay : rotatePage s = s := by simp only [rotatePage, hplayer]
  rw [beforeCpuStep, performAction_rotatePage, hstay]
  simp only [evaluateTriggers, hplayer]

theorem memReadView_of_reg {s : State} {r : RegId} (hplayer : s.player = .reg r) (v : View) (pg : PageId) (a : Addr) :
    memReadView s v pg a = memRead s pg a := by
  cases v with
  | effective => exact memReadEff_of_player_ne (by simp [hplayer])
  | stored => rfl

/-- With the player on a register, an instruction is read from the stored bytes of its row. -/
theorem readInstruction_of_reg {s : State} {r : RegId} (hplayer : s.player = .reg r) {pg : PageId} {a : Addr}
    (ha : (xof a).toNat ≤ 253) {b0 b1 b2 : Byte}
    (h0 : memRead s pg (pack (xof a + BitVec.ofNat 8 0) (yof a)) = b0)
    (h1 : memRead s pg (pack (xof a + BitVec.ofNat 8 1) (yof a)) = b1)
    (h2 : memRead s pg (pack (xof a + BitVec.ofNat 8 2) (yof a)) = b2) :
    readInstruction s pg a = decode s.cfg.addrOperandOrder b0 b1 b2 := by
  have hop : memReadEff s pg a = b0 := by
    rw [memReadEff_of_player_ne (by simp [hplayer]), ← h0, BitVec.add_zero, pack_xof_yof]
  have hoperand {k : Nat} (hk : k ≤ 2) :
      operand s pg a k = memRead s pg (pack (xof a + BitVec.ofNat 8 k) (yof a)) := by
    rw [operand_in_row (by omega), memReadView_of_reg hplayer, BitVec.ofNat_add, BitVec.ofNat_toNat, BitVec.setWidth_eq]
  rw [readInstruction_of_byte hop, hoperand (by omega), hoperand (by omega), h1, h2]

/-- With the player parked on Compare and a RotatePage next, the step runs what `pc` of the Page register's page holds. -/
theorem step_of_parked {s : State} {rest : List HostInput} (hplayer : s.player = .reg .compare)
    (hin : s.inputs = .makeMove .rotatePage :: rest) (hactive : s.activePage = s.reg .page) :
    step s = exec (readInstruction s (s.reg .page) s.pc) { s with inputs := rest } := by
  have hcpu : cpuPage { s with inputs := rest } = s.reg .page :=
    regEff_of_player_ne (s := { s with inputs := rest }) (by simp [hplayer])
  rw [step_of_makeMove hin, beforeCpuStep_rotatePage_of_reg (s := { s with inputs := rest }) hplayer,
    cpuStep_of_gate_open (s := { s with inputs := rest }) (hactive.trans hcpu.symm), fetched, hcpu]
  rfl

/-- The step that follows placing three bytes runs what they decode to, with the earlier inputs pending. -/
theorem step_placeInstruction {s : State} (hwf : s.inv) (b0 b1 b2 : Byte) :
    step (placeInstruction s [b0, b1, b2]) =
      exec (decode s.cfg.addrOperandOrder b0 b1 b2) { placeInstruction s [b0, b1, b2] with inputs := s.inputs } := by
  have hplaced := placeInstruction_eq s [b0, b1, b2]
  have hread {k : Nat} {b : Byte} := memRead_placeInstruction hwf (bytes := [b0, b1, b2]) (by simp) (k := k) (b := b)
  generalize placeInstruction s [b0, b1, b2] = u at hplaced hread
  have hplayer : u.player = .reg .compare := by rw [hplaced]
  have hin : u.inputs = .makeMove .rotatePage :: s.inputs := by rw [hplaced]
  have hpc : u.pc = loadAddr s.pc := by rw [hplaced]
  have hcfg : u.cfg = s.cfg := by rw [hplaced]
  have hpage : u.reg .page = s.reg .page := by rw [hplaced]; rfl
  have hactive : u.activePage = u.reg .page := by rw [hpage, hplaced]
  have hfetch : readInstruction u (s.reg .page) u.pc = decode s.cfg.addrOperandOrder b0 b1 b2 := by
    rw [hpc, ← hcfg]
    exact readInstruction_of_reg hplayer (xof_loadAddr_le s.pc) (hread rfl) (hread rfl) (hread rfl)
  rw [step_of_parked hplayer hin hactive, hpage, hfetch]

/-- A table word that decodes is three cells that decode under the order `xy`. -/
theorem decodeTableWord_eq_some {nbits w : Nat} {i : Instr} (h : decodeTableWord nbits w = some i) :
    ∃ b0 b1 b2, tableWordBytes nbits w = [b0, b1, b2] ∧ decode .xy b0 b1 b2 = i := by
  refine ⟨_, _, _, rfl, ?_⟩
  unfold decodeTableWord at h
  split at h
  · exact Option.some.inj h
  · cases h

end Sys2Proof.Machine

namespace Sys2Proof.Proofs

open Machine

/-- Settles O32: the action of the next step does nothing, and its fetch reads the placed bytes. -/
theorem placedInstructionRuns : Obligations.PlacedInstructionRuns := by
  intro s nbits w i hwf horder hdecode
  obtain ⟨b0, b1, b2, hbytes, rfl⟩ := decodeTableWord_eq_some hdecode
  rw [State.withFetchWord, hbytes, step_placeInstruction hwf, horder]

end Sys2Proof.Proofs
end

section
/-! The shape of a difference, 50_diff_codec.md R172 and R174: the gaps between the hunks and their two ends, kept by every
address of the scan. -/

namespace Sys2Proof.Machine

theorem Hunk.start_lt_stop (h : Hunk) : h.start.toNat < h.stop := by
  rw [Hunk.stop_eq]
  omega

/-- More than `gap` addresses of neither hunk lie between the first and the second. -/
def Hunk.Before (gap : Nat) (h k : Hunk) : Prop := h.stop + gap + 1 ≤ k.start.toNat

/-- The hunks lie apart in rising order, and each starts and ends at a differing address (R174). -/
structure WellShaped (gap : Nat) (before after : Grid) (d : List Hunk) : Prop where
  apart : d.Pairwise (Hunk.Before gap)
  start_differs : ∀ h ∈ d, before.read h.start.toNat ≠ after.read h.start.toNat
  last_differs : ∀ h ∈ d, before.read (h.stop - 1) ≠ after.read (h.stop - 1)

namespace WellShaped

variable {gap : Nat} {before after : Grid} {d : List Hunk}

theorem nil : WellShaped gap before after [] where
  apart := List.Pairwise.nil
  start_differs := by simp
  last_differs := by simp

/-- A hunk may follow hunks that all lie before it. -/
theorem snoc {k : Hunk} (hd : WellShaped gap before after d) (hbefore : ∀ h ∈ d, h.Before gap k)
    (hstart : before.read k.start.toNat ≠ after.read k.start.toNat)
    (hlast : before.read (k.stop - 1) ≠ after.read (k.stop - 1)) : WellShaped gap before after (d ++ [k]) where
  apart := List.pairwise_append.2 ⟨hd.apart, List.pairwise_singleton _ k, by simpa using hbefore⟩
  start_differs := by simpa [or_imp, forall_and] using ⟨hd.start_differs, hstart⟩
  last_differs := by simpa [or_imp, forall_and] using ⟨hd.last_differs, hlast⟩

theorem of_append {e : List Hunk} (hd : WellShaped gap before after (d ++ e)) : WellShaped gap before after d where
  apart := (List.pairwise_append.1 hd.apart).1
  start_differs h hh := hd.start_differs h (List.mem_append_left e hh)
  last_differs h hh := hd.last_differs h (List.mem_append_left e hh)

theorem before_last {h k : Hunk} (hd : WellShaped gap before after (d ++ [h])) (hk : k ∈ d) : k.Before gap h :=
  (List.pairwise_append.1 hd.apart).2.2 k hk h (List.mem_singleton_self h)

/-- What lies far enough behind the last hunk lies so behind every hunk. -/
theorem stop_le_of_last {h : Hunk} {a : Nat} (hd : WellShaped gap before after (d ++ [h])) (hfar : h.stop + gap + 1 ≤ a) :
    ∀ k ∈ d ++ [h], k.stop + gap + 1 ≤ a := by
  intro k hk
  rcases List.mem_append.1 hk with hk | hk
  · have hbefore : k.stop + gap + 1 ≤ h.start.toNat := hd.before_last hk
    have hlt := h.start_lt_stop
    omega
  · rwa [List.mem_singleton.1 hk]

theorem add_begin {a : Nat} (hd : WellShaped gap before after d) (ha : a < 65536)
    (hne : before.read a ≠ after.read a) (hfar : ∀ h ∈ d, h.stop + gap + 1 ≤ a) :
    WellShaped gap before after (d ++ [Hunk.begin after a]) := by
  refine hd.snoc (fun h hh => ?_) ?_ ?_
  · rw [Hunk.Before, Hunk.begin_start after ha]
    exact hfar h hh
  · rwa [Hunk.begin_start after ha]
  · rwa [Hunk.begin_stop after ha, Nat.add_sub_cancel]

theorem extend_last {h : Hunk} {a : Nat} (hd : WellShaped gap before after (d ++ [h])) (hstop : h.stop ≤ a)
    (hne : before.read a ≠ after.read a) : WellShaped gap before after (d ++ [h.extend after a]) := by
  refine hd.of_append.snoc (fun k hk => hd.before_last hk) (hd.start_differs h (by simp)) ?_
  rwa [Hunk.extend_stop after hstop, Nat.add_sub_cancel]

end WellShaped

/-- The invariant of the scan before address `a`: what `DescribesBelow` says of the hunks found, their shape, and that
none is finished before one is begun. -/
structure ScannedBelow (gap : Nat) (before after : Grid) (a : Nat) (st : DiffState) : Prop where
  begun : st.cur = none → st.hunks = []
  describes : DescribesBelow before after a st.finish
  shaped : WellShaped gap before after st.finish

namespace ScannedBelow

variable {gap : Nat} {before after : Grid} {a : Nat} {st : DiffState}

theorem start : ScannedBelow gap before after 0 ⟨[], none⟩ :=
  ⟨fun _ => rfl, DescribesBelow.zero before after, WellShaped.nil⟩

theorem of_diffStep (ha : a < 65536) (hst : ScannedBelow gap before after a st) :
    ScannedBelow gap before after (a + 1) (diffStep gap before after a st) := by
  have hdescribes := hst.describes.of_diffStep gap ha
  have hshaped := hst.shaped
  rcases diffStep_cases gap before after a st with ⟨-, h⟩ | ⟨hne, hcur, h⟩ | ⟨k, hne, hcur, ⟨-, h⟩ | ⟨hgap, h⟩⟩ <;>
    rw [h] at hdescribes ⊢
  · exact ⟨hst.begun, hdescribes, hshaped⟩
  · refine ⟨nofun, hdescribes, ?_⟩
    rw [DiffState.finish, hst.begun hcur]
    exact WellShaped.nil.add_begin ha hne (by simp)
  · have hfinish : st.finish = st.hunks ++ [k] := by rw [DiffState.finish, hcur]
    rw [hfinish] at hshaped
    exact ⟨nofun, hdescribes, hshaped.extend_last (hst.describes.stop_le k (by simp [hfinish])) hne⟩
  · have hfinish : st.finish = st.hunks ++ [k] := by rw [DiffState.finish, hcur]
    rw [hfinish] at hshaped
    exact ⟨nofun, hdescribes, hshaped.add_begin ha hne (hshaped.stop_le_of_last (by omega))⟩

theorem of_diffScan (n : Nat) (hn : a + n ≤ 65536) (hst : ScannedBelow gap before after a st) :
    ScannedBelow gap before after (a + n) (diffScan gap before after n a st) := by
  induction n generalizing a st with
  | zero => exact hst
  | succ n ih =>
    rw [diffScan, Nat.add_comm n 1, ← Nat.add_assoc]
    exact ih (by omega) (hst.of_diffStep (by omega))

end ScannedBelow

theorem diff_wellShaped (c : Config) (before after : Grid) :
    WellShaped c.diffMergeGap before after (diff c before after) :=
  ((ScannedBelow.start (gap := c.diffMergeGap) (before := before) (after := after)).of_diffScan 65536 (by omega)).shaped

theorem Hunk.Before.not_contains {gap : Nat} {h k : Hunk} (hbefore : h.Before gap k) {a : Nat} (hha : h.Contains a) :
    ¬k.Contains a := by
  unfold Hunk.Before at hbefore
  obtain ⟨-, hstop⟩ := hha
  rw [Hunk.not_contains_iff]
  omega

/-- An address is inside at most one hunk. -/
theorem WellShaped.eq_of_contains {gap : Nat} {before after : Grid} {d : List Hunk} (hd : WellShaped gap before after d)
    {h k : Hunk} (hh : h ∈ d) (hk : k ∈ d) {a : Nat} (hha : h.Contains a) (hka : k.Contains a) : h = k := by
  have hforwards : d.Pairwise fun h k : Hunk => h.Contains a → k.Contains a → h = k :=
    hd.apart.imp fun hbefore hha hka => absurd hka (hbefore.not_contains hha)
  have hbackwards : d.Pairwise fun h k : Hunk => k.Contains a → h.Contains a → k = h :=
    hd.apart.imp fun hbefore hka hha => absurd hka (hbefore.not_contains hha)
  exact List.Pairwise.forall_of_forall_of_flip (fun _ _ _ _ => rfl) hforwards hbackwards hh hk hha hka

theorem Hunk.CopiedFrom.getElem? {after : Grid} {h : Hunk} (hcopied : h.CopiedFrom after) {i : Nat}
    (hi : i < h.bytes.length) : h.bytes[i]? = some (after.read (h.start.toNat + i)) := by
  rw [hcopied]
  exact readRun_getElem? after hi

end Sys2Proof.Machine

namespace Sys2Proof.Proofs

open Machine

/-- Settles O55: the invariants of the scan at its end; hunks apart share no address. -/
theorem diffShape : Obligations.DiffShape := by
  intro c before after
  have hdescribes := diff_describes c before after
  have hshaped := diff_wellShaped c before after
  refine ⟨hshaped.apart.imp fun {h k} hbefore => ?_, fun h hh => ?_, fun a ha hne => ?_⟩
  · exact ⟨(h.start_lt_stop.trans_le (by omega)).trans_le hbefore, hbefore⟩
  · exact ⟨h.bytes_ne_nil, hdescribes.stop_le h hh, hshaped.start_differs h hh, hshaped.last_differs h hh,
      fun i => (hdescribes.copied h hh).getElem?⟩
  · obtain ⟨h, hh, hin⟩ := hdescribes.covers a ha hne
    exact ⟨h, hh, hin, fun k hk hstart hstop => hshaped.eq_of_contains hk hh ⟨hstart, hstop⟩ hin⟩

end Sys2Proof.Proofs
end

section
/-! Which streams are whole records, 50_diff_codec.md R177 to R182, and how long the serializer's are, R185. -/

namespace Sys2Proof.Machine

/-- The record of a hunk that is read is the bytes it is read from (R178). -/
theorem record_of_read (lo hi m b : Byte) {bytes : List Byte} (hm : bytes.length = m.toNat) :
    (⟨pack hi lo, b, bytes⟩ : Hunk).record = lo :: hi :: m :: b :: bytes := by
  have hlo : BitVec.ofNat 8 (pack hi lo).toNat = lo := yof_pack hi lo
  have hhi : BitVec.ofNat 8 ((pack hi lo).toNat / 256) = hi := xof_pack hi lo
  simp only [Hunk.record, recordBytes, Hunk.bytes, List.length_cons, Nat.add_sub_cancel, hm, hlo, hhi, BitVec.ofNat_toNat,
    BitVec.setWidth_eq]

/-- What is read is whole records of at most 256 bytes. -/
theorem flatMap_record_of_readRecords {n : Nat} {stream : List Byte} {d : List Hunk} (h : readRecords n stream = .ok d) :
    (∀ k ∈ d, k.bytes.length ≤ 256) ∧ stream = d.flatMap Hunk.record := by
  induction n, stream using readRecords.induct generalizing d with
  | case1 n =>
    rw [readRecords_nil] at h
    obtain rfl := Except.ok.inj h
    exact ⟨by simp, rfl⟩
  | case2 n lo hi m b rest hm e hrest ih =>
    simp only [readRecords, if_pos hm, hrest] at h
    obtain rfl := Except.ok.inj h
    obtain ⟨hlen, hbytes⟩ := ih hrest
    have htake : (rest.take m.toNat).length = m.toNat := List.length_take_of_le hm
    have hm256 : m.toNat < 256 := m.isLt
    refine ⟨List.forall_mem_cons.2 ⟨?_, hlen⟩, ?_⟩
    · rw [Hunk.bytes_length, htake]
      exact hm256
    · rw [List.flatMap_cons, record_of_read lo hi m b htake, ← hbytes]
      simp only [List.cons_append, List.take_append_drop]
  | case3 n lo hi m b rest hm err hrest ih =>
    simp only [readRecords, if_pos hm, hrest] at h
    cases h
  | case4 n lo hi m b rest hm =>
    rw [readRecords, if_neg hm] at h
    cases h
  | case5 n head tail hother =>
    rw [readRecords] at h
    · cases h
    · exact hother

/-- The streams that are read are whole records of at most 256 bytes, one per hunk (R181). -/
theorem deserialize_eq_ok_iff (b : List Byte) (d : List Hunk) :
    deserialize b = .ok d ↔ (∀ h ∈ d, h.bytes.length ≤ 256) ∧ b = d.flatMap Hunk.record := by
  refine ⟨flatMap_record_of_readRecords, ?_⟩
  rintro ⟨hlen, rfl⟩
  exact readRecords_flatMap_record hlen le_rfl

/-- The reader has one error, so a stream without a diff gives it (R182). -/
theorem deserialize_eq_error_iff (b : List Byte) :
    deserialize b = .error .formatError ↔ ∀ d, deserialize b ≠ .ok d := by
  cases deserialize b with
  | ok d => simp
  | error err => cases err; simp

/-! Leftover bytes. -/

theorem readRecords_eq_error_of_short (n : Nat) {x : List Byte} (hpos : 1 ≤ x.length) (hlen : x.length ≤ 3) :
    readRecords n x = .error .formatError := by
  match x with
  | [] => exact absurd hpos (by simp)
  | [_] => simp [readRecords]
  | [_, _] => simp [readRecords]
  | [_, _, _] => simp [readRecords]
  | _ :: _ :: _ :: _ :: _ => exact absurd hlen (by simp)

/-- A record in front does not mend what follows it. -/
theorem readRecords_record_error {h : Hunk} (hlen : h.bytes.length ≤ 256) {n : Nat} {x : List Byte}
    (hx : readRecords n x = .error .formatError) : readRecords (n + 1) (h.record ++ x) = .error .formatError := by
  obtain ⟨start, first, rest⟩ := h
  rw [Hunk.bytes_length] at hlen
  have hm : (BitVec.ofNat 8 ((first :: rest).length - 1)).toNat = rest.length :=
    Nat.mod_eq_of_lt (Nat.lt_of_succ_le hlen)
  simp only [Hunk.record, recordBytes, Hunk.bytes, List.cons_append, readRecords, hm, List.drop_left, hx, ite_self]

theorem readRecords_leftover {d : List Hunk} (hd : ∀ h ∈ d, h.bytes.length ≤ 256) {x : List Byte} (hpos : 1 ≤ x.length)
    (hlen : x.length ≤ 3) {n : Nat} (hn : (d.flatMap Hunk.record).length ≤ n) :
    readRecords n (d.flatMap Hunk.record ++ x) = .error .formatError := by
  induction d generalizing n with
  | nil => exact readRecords_eq_error_of_short n hpos hlen
  | cons h d ih =>
    rw [List.flatMap_cons, List.length_append, Hunk.record_length] at hn
    obtain ⟨m, rfl⟩ : ∃ m, n = m + 1 := ⟨n - 1, by omega⟩
    rw [List.flatMap_cons, List.append_assoc]
    exact readRecords_record_error (hd h List.mem_cons_self)
      (ih (fun k hk => hd k (List.mem_cons_of_mem _ hk)) (by omega))

/-! The serializer's stream. -/

theorem serialize_eq_error {d : List Hunk} (hd : ∃ h ∈ d, 65536 < h.stop) : serialize d = .error .hunkPastEnd :=
  if_neg (by simpa using hd)

theorem eq_flatMap_of_serialize {d : List Hunk} {stream : List Byte} (h : serialize d = .ok stream) :
    stream = d.flatMap serializeHunk := by
  unfold serialize at h
  split at h
  · exact (Except.ok.inj h).symm
  · cases h

/-- Each record of at most 256 bytes costs three bytes more (R185). -/
theorem length_chunkRecords {n s : Nat} {bs : List Byte} (hn : bs.length ≤ n) :
    (chunkRecords n s bs).length = bs.length + 3 * ((bs.length + 255) / 256) := by
  induction n generalizing s bs with
  | zero =>
    obtain rfl := List.length_eq_zero_iff.1 (Nat.le_zero.1 hn)
    rfl
  | succ n ih =>
    rcases bs with _ | ⟨b, bs⟩
    · rfl
    · have hdrop : ((b :: bs).drop 256).length = (b :: bs).length - 256 := List.length_drop
      have htake : ((b :: bs).take 256).length = min 256 (b :: bs).length := List.length_take
      have hpos : 1 ≤ (b :: bs).length := Nat.succ_pos _
      have hrecord : (recordBytes s ((b :: bs).take 256)).length = ((b :: bs).take 256).length + 3 := rfl
      rw [chunkRecords, List.length_append, ih (by omega), hrecord, htake, hdrop]
      omega

end Sys2Proof.Machine

namespace Sys2Proof.Proofs

open Machine

/-- Settles O57: the stream's records patch as the hunks they were cut from; a hunk past the end is refused. -/
theorem streamPatchesIdentically : Obligations.StreamPatchesIdentically := fun _ =>
  ⟨exists_stream_patching_as, serialize_eq_error⟩

/-- Settles O58: reading inverts writing records, and there is one error. -/
theorem deserializeReadsWholeRecords : Obligations.DeserializeReadsWholeRecords := by
  refine fun b => ⟨fun d => (deserialize_eq_ok_iff b d).trans ?_, (deserialize_eq_error_iff b).symm⟩
  exact and_congr_left' (forall₂_congr fun h _ => (and_iff_right (Nat.succ_pos _)).symm)

/-- Settles O59: the records before are read, the bytes left are too few for one. -/
theorem leftoverBytesAreAFormatError : Obligations.LeftoverBytesAreAFormatError := by
  intro b x d h hpos hlen
  obtain ⟨hd, rfl⟩ := (deserialize_eq_ok_iff b d).1 h
  exact readRecords_leftover hd hpos hlen (by rw [List.length_append]; omega)

/-- Settles O60: three bytes for each record, summed over the hunks. -/
theorem streamLength : Obligations.StreamLength := by
  intro d stream h
  rw [eq_flatMap_of_serialize h, List.length_flatMap]
  exact congrArg List.sum (List.map_congr_left fun k _ => length_chunkRecords le_rfl)

end Sys2Proof.Proofs
end

section
/-! The host's actions on the register list and on the page ids, 55_host_interface.md R209, R211 and R212. -/

namespace Sys2Proof.Machine

/-! The register list. -/

theorem registerMove_of_no_dest {d : Dir} {r : RegId} (hnone : regMoveDest d r = none) (s : State) :
    registerMove d r s = s := by
  simp only [registerMove, hnone]

/-- An accessible destination takes the player; the active page is read with the player there (decision D18). -/
theorem registerMove_of_dest {d : Dir} {r dest : RegId} (hdest : regMoveDest d r = some dest) (s : State) :
    registerMove d r s =
      if accessible s.cfg (regEff s dest) then
        { s with player := .reg dest, activePage := regEff { s with player := .reg dest } .page }
      else s := by
  simp only [registerMove, hdest]

/-- No Move names the register it starts from. -/
theorem regMoveDest_ne_self (d : Dir) (r : RegId) : regMoveDest d r ≠ some r := by
  cases d <;> cases r <;> decide

theorem regEff_page_of_player_moved (s : State) (dest : RegId) :
    regEff { s with player := .reg dest } .page =
      if dest = .page then s.reg .page ||| playerMask s.cfg else s.reg .page := by
  split_ifs with hpage
  · exact regEff_of_player (s := { s with player := .reg dest }) (congrArg Player.reg hpage)
  · exact regEff_of_player_ne (s := { s with player := .reg dest }) fun h => hpage (Player.reg.inj h)

/-! The rotation. -/

/-- The page id after another one in the rotation: 255 is followed by 1, so 0 never comes (R211). -/
def nextPage (c : PageId) : PageId := if c = 255 then 1 else c + 1

theorem nextPage_ne_zero (c : PageId) : nextPage c ≠ 0 := by
  unfold nextPage
  split_ifs with hlast
  · decide
  · bv_omega

theorem rotateSearch_succ (visited : Bits256) (n : Nat) (c : PageId) :
    rotateSearch visited (n + 1) c =
      if visited.get (nextPage c) then some (nextPage c) else rotateSearch visited n (nextPage c) := by
  have hnext : (if c.toNat ≥ 255 then 1 else c + 1) = nextPage c := by
    unfold nextPage
    exact if_congr (by bv_omega) rfl rfl
  rw [rotateSearch, hnext]

/-- The search answers the first visited id (R211). -/
theorem rotateSearch_eq_some {visited : Bits256} {n k : Nat} {c : PageId} (hkn : k < n)
    (hvisited : visited.get (nextPage^[k + 1] c) = true)
    (hfirst : ∀ j < k, visited.get (nextPage^[j + 1] c) = false) :
    rotateSearch visited n c = some (nextPage^[k + 1] c) := by
  induction k generalizing n c with
  | zero =>
    obtain ⟨n, rfl⟩ := Nat.exists_eq_succ_of_ne_zero (Nat.ne_zero_of_lt hkn)
    rw [rotateSearch_succ]
    exact if_pos hvisited
  | succ k ih =>
    obtain ⟨n, rfl⟩ := Nat.exists_eq_succ_of_ne_zero (Nat.ne_zero_of_lt hkn)
    have hskip : visited.get (nextPage c) = false := hfirst 0 (Nat.succ_pos k)
    rw [rotateSearch_succ, hskip]
    exact ih (Nat.lt_of_succ_lt_succ hkn) hvisited fun j hj => hfirst (j + 1) (Nat.succ_lt_succ hj)

theorem rotateSearch_eq_none {visited : Bits256} {n : Nat} {c : PageId}
    (hnone : ∀ j < n, visited.get (nextPage^[j + 1] c) = false) : rotateSearch visited n c = none := by
  induction n generalizing c with
  | zero => rfl
  | succ n ih =>
    have hskip : visited.get (nextPage c) = false := hnone 0 (Nat.succ_pos n)
    rw [rotateSearch_succ, hskip]
    exact ih fun j hj => hnone (j + 1) (Nat.succ_lt_succ hj)

theorem rotateAllowed_iff (s : State) :
    rotateAllowed s = true ↔
      s.cfg.rotateRule = .always ∨ (s.cfg.rotateRule = .afterPageInstruction ∧ s.pageInstrExecuted = true) := by
  unfold rotateAllowed
  cases s.cfg.rotateRule <;> simp

section

variable {s : State}

/-- When the host may rotate: the player is in the grid and the rule allows it (R212). -/
def State.MayRotate (s : State) : Prop :=
  s.PlayerInGrid ∧
    (s.cfg.rotateRule = .always ∨ (s.cfg.rotateRule = .afterPageInstruction ∧ s.pageInstrExecuted = true))

theorem rotatePage_of_forbidden (hforbidden : ¬s.MayRotate) : rotatePage s = s := by
  rcases rotatePage_cases s with h | ⟨x, y, _, hplayer, hallowed, -⟩
  · exact h
  · exact absurd ⟨⟨x, y, hplayer⟩, (rotateAllowed_iff s).1 hallowed⟩ hforbidden

theorem rotatePage_of_allowed (hallowed : s.MayRotate) :
    rotatePage s = (rotateSearch s.visited 255 s.activePage).elim s fun c => { s with activePage := c } := by
  obtain ⟨⟨x, y, hplayer⟩, hrule⟩ := hallowed
  unfold rotatePage
  split
  next r hreg => exact absurd (hreg.symm.trans hplayer) (by simp)
  next =>
    rw [if_pos ((rotateAllowed_iff s).2 hrule)]
    cases rotateSearch s.visited 255 s.activePage with
    | none => rfl
    | some c => rfl

/-- The rotation goes to the first visited of the 255 ids that follow, which is never 0. -/
theorem rotatePage_of_first_visited (hallowed : s.MayRotate) {k : Nat} (hpos : 1 ≤ k) (hk : k ≤ 255)
    (hvisited : s.visited.get (nextPage^[k] s.activePage) = true)
    (hfirst : ∀ j : Nat, 1 ≤ j → j < k → s.visited.get (nextPage^[j] s.activePage) = false) :
    rotatePage s = { s with activePage := nextPage^[k] s.activePage } ∧ (rotatePage s).activePage ≠ 0 := by
  obtain ⟨k, rfl⟩ := Nat.exists_eq_succ_of_ne_zero (Nat.ne_zero_of_lt hpos)
  have hsearch := rotateSearch_eq_some (n := 255) hk hvisited
    fun j hj => hfirst (j + 1) (Nat.succ_pos j) (Nat.succ_lt_succ hj)
  rw [rotatePage_of_allowed hallowed, hsearch]
  refine ⟨rfl, ?_⟩
  rw [Function.iterate_succ_apply']
  exact nextPage_ne_zero _

theorem rotatePage_of_none_visited (hallowed : s.MayRotate)
    (hnone : ∀ j : Nat, 1 ≤ j → j ≤ 255 → s.visited.get (nextPage^[j] s.activePage) = false) : rotatePage s = s := by
  rw [rotatePage_of_allowed hallowed, rotateSearch_eq_none fun j hj => hnone (j + 1) (Nat.succ_pos j) hj]
  rfl

end

end Sys2Proof.Machine

namespace Sys2Proof.Proofs

open Machine

/-- Settles O47: the list's neighbours, the test of the destination's stored value, and the page read after the move. -/
theorem registerMoveResult : Obligations.RegisterMoveResult := by
  intro s r d hplayer
  rw [performAction_move_of_reg d hplayer]
  refine ⟨fun hstay => registerMove_of_no_dest ?_ s, fun dest hnames => ?_⟩
  · rcases hstay with rfl | rfl | ⟨rfl, rfl⟩ | ⟨rfl, rfl⟩ <;> rfl
  · have hdest : regMoveDest d r = some dest := by
      rcases hnames with ⟨rfl, rfl, rfl⟩ | ⟨rfl, rfl, rfl⟩ | ⟨rfl, rfl, rfl⟩ | ⟨rfl, rfl, rfl⟩ <;> rfl
    have hread : regEff s dest = s.reg dest := by
      refine regEff_of_player_ne fun hthere => regMoveDest_ne_self d r ?_
      rw [hdest, ← Player.reg.inj (hplayer.symm.trans hthere)]
    refine ⟨hread, fun hclear => ?_, fun hset => ?_⟩
    · rw [registerMove_of_dest hdest, hread, if_pos ((accessible_iff _ _).2 hclear), regEff_page_of_player_moved]
    · rw [registerMove_of_dest hdest, hread, if_neg fun hfree => hset ((accessible_iff _ _).1 hfree)]

/-- Settles O48: the search over the successors, under the rule and in the grid. -/
theorem rotatePageFindsTheNextVisited : Obligations.RotatePageFindsTheNextVisited := fun _ =>
  ⟨rotatePage_of_forbidden, fun _ hallowed hpos hk => rotatePage_of_first_visited hallowed hpos hk,
    rotatePage_of_none_visited⟩

end Sys2Proof.Proofs
end

section
/-! Triggers, 55_host_interface.md R214 to R216: what an effect does, what firing marks, and after which landings one fires. -/

namespace Sys2Proof.Machine

/-! Effects. -/

theorem untouched_redirect (target : Addr) (s : State) : Untouched s (redirect target s) := by
  by_cases hresets : s.cfg.triggerResetsRegs = true
  · rw [redirect_eq_of_resets hresets]
    exact ((untouched_setReg s .data _).trans (untouched_setReg _ .compare _)).trans (untouched_setPc _ target)
  · rw [redirect_eq_of_keeps hresets]
    exact untouched_setPc s target

theorem applyEffect_message_win (s : State) :
    applyEffect (.message "WIN") s = { s with messages := s.messages ++ ["WIN"], endOfLevel := true } := by
  simp [applyEffect]

theorem applyEffect_message_of_ne {text : String} (hne : text ≠ "WIN") (s : State) :
    applyEffect (.message text) s = { s with messages := s.messages ++ [text] } := by
  simp [applyEffect, hne]

/-! Marking a trigger (R215). -/

/-- The trigger, marked when it stands at position `a`. -/
def Trigger.markAt (a : Addr) (t : Trigger) : Trigger := if t.position = a then { t with triggered := true } else t

theorem Trigger.markAt_of_position {a : Addr} {t : Trigger} (hpos : t.position = a) :
    t.markAt a = { t with triggered := true } :=
  if_pos hpos

theorem Trigger.markAt_of_other {a : Addr} {t : Trigger} (hother : t.position ≠ a) : t.markAt a = t := if_neg hother

@[simp] theorem Trigger.markAt_position (a : Addr) (t : Trigger) : (t.markAt a).position = t.position := by
  unfold Trigger.markAt
  split <;> rfl

theorem Trigger.markAt_markAt (a : Addr) (t : Trigger) : (t.markAt a).markAt a = t.markAt a := by
  by_cases hpos : t.position = a
  · rw [Trigger.markAt_of_position hpos]
    exact Trigger.markAt_of_position (t := { t with triggered := true }) hpos
  · rw [Trigger.markAt_of_other hpos, Trigger.markAt_of_other hpos]

theorem Page.markTriggered_markTriggered (a : Addr) (p : Page) :
    (p.markTriggered a).markTriggered a = p.markTriggered a := by
  have htwice : (p.triggers.map (Trigger.markAt a)).map (Trigger.markAt a) = p.triggers.map (Trigger.markAt a) := by
    rw [List.map_map]
    exact List.map_congr_left fun t _ => t.markAt_markAt a
  exact congrArg (fun ts => { p with triggers := ts }) htwice

theorem Memory.modify_modify {f : Page → Page} (hid : ∀ p, (f p).id = p.id) (hf : ∀ p, f (f p) = f p) (m : Memory)
    (pg : PageId) : (m.modify pg f).modify pg f = m.modify pg f := by
  rw [Memory.modify, Memory.modify, List.map_map]
  refine List.map_congr_left fun p _ => ?_
  by_cases hp : p.id = pg
  · simp only [Function.comp_apply, if_pos hp, hid, hf]
  · simp only [Function.comp_apply, if_neg hp]

/-- The state with the trigger of page `pg` at `a` marked triggered. -/
def State.markTriggered (s : State) (pg : PageId) (a : Addr) : State :=
  { s with memory := s.memory.modify pg (Page.markTriggered a) }

theorem triggerTable_marked (s : State) (pg : PageId) (a : Addr) :
    triggerTable (s.markTriggered pg a) pg = (triggerTable s pg).map (Trigger.markAt a) :=
  triggerTable_markTriggered s pg a

theorem findTrigger_position {ts : List Trigger} {a : Addr} {t : Trigger} (hfind : findTrigger ts a = some t) :
    t.position = a := by
  simpa using List.find?_some hfind

theorem findTrigger_map_markAt (ts : List Trigger) (a : Addr) :
    findTrigger (ts.map (Trigger.markAt a)) a = (findTrigger ts a).map (Trigger.markAt a) := by
  rw [findTrigger, List.find?_map]
  simp only [Function.comp_def, Trigger.markAt_position]
  rfl

/-! Firing (R215). -/

section

variable {s : State} {pg : PageId} {a : Addr} {trigger : Trigger}
  (hfind : findTrigger (triggerTable s pg) a = some trigger)
include hfind

theorem fireAt_of_active (hactive : trigger.isActive = true) :
    fireAt pg a s = applyEffect trigger.effect (s.markTriggered pg a) := by
  rw [fireAt, hfind]
  exact if_pos hactive

theorem fireAt_of_inactive (hinactive : trigger.isActive = false) : fireAt pg a s = s := by
  rw [fireAt, hfind]
  exact if_neg (by simp [hinactive])

theorem fireAt_memory (hactive : trigger.isActive = true) :
    (fireAt pg a s).memory = (s.markTriggered pg a).memory := by
  rw [fireAt_of_active hfind hactive, applyEffect_memory]

/-- A trigger that has fired is marked. -/
theorem findTrigger_fireAt (hactive : trigger.isActive = true) :
    findTrigger (triggerTable (fireAt pg a s) pg) a = some { trigger with triggered := true } := by
  rw [triggerTable_congr (fireAt_memory hfind hactive), triggerTable_marked, findTrigger_map_markAt, hfind,
    Option.map_some, Trigger.markAt_of_position (findTrigger_position hfind)]

/-- Marking the trigger again after it has fired changes nothing. -/
theorem markTriggered_fireAt (hactive : trigger.isActive = true) :
    (fireAt pg a s).markTriggered pg a = fireAt pg a s := by
  have htwice : (s.markTriggered pg a).memory.modify pg (Page.markTriggered a) = (s.markTriggered pg a).memory :=
    Memory.modify_modify (f := Page.markTriggered a) (fun _ => rfl) (Page.markTriggered_markTriggered a) s.memory pg
  rw [State.markTriggered, fireAt_memory hfind hactive, htwice, ← fireAt_memory hfind hactive]

theorem fireAt_fireAt_of_oneTime (hactive : trigger.isActive = true) (honce : trigger.oneTime = true) :
    fireAt pg a (fireAt pg a s) = fireAt pg a s :=
  fireAt_of_inactive (findTrigger_fireAt hfind hactive) (by simp [Trigger.isActive, honce])

theorem fireAt_fireAt_of_repeatable (hactive : trigger.isActive = true) (hrepeat : trigger.oneTime = false) :
    fireAt pg a (fireAt pg a s) = applyEffect trigger.effect (fireAt pg a s) := by
  rw [fireAt_of_active (findTrigger_fireAt hfind hactive) (by simp [Trigger.isActive, hrepeat]),
    markTriggered_fireAt hfind hactive]

end

/-! Landings (R215; log entry 16). -/

theorem gridMove_landing_cases (d : Dir) (x y : Byte) (s : State) :
    gridMove d x y s = (s, .blocked) ∨
    ∃ cx cy, (cx, cy) ≠ (x, y) ∧ gridMove d x y s = ({ s with player := .pos cx cy }, .relocated) := by
  rcases gridMove_cases d x y s with h | ⟨cx, cy, hcand, -, h⟩
  · exact Or.inl h
  · exact Or.inr ⟨cx, cy, fun hself => moveCandidate_ne_self _ d x y (hself ▸ hcand), h⟩

section

variable {a : Action} {s : State}

theorem beforeCpuStep_of_evaluated (hlanding : evaluatesTriggers s.cfg (performAction a s).2 = true) {x y : Byte}
    (hplayer : (performAction a s).1.player = .pos x y) :
    beforeCpuStep a s = fireAt (performAction a s).1.activePage (pack x y) (performAction a s).1 := by
  rw [← performAction_cfg a s] at hlanding
  unfold beforeCpuStep evaluateTriggers
  rw [hplayer]
  exact if_pos hlanding

theorem beforeCpuStep_of_not_evaluated (hlanding : evaluatesTriggers s.cfg (performAction a s).2 = false) :
    beforeCpuStep a s = (performAction a s).1 := by
  rcases beforeCpuStep_cases a s with h | ⟨x, y, t, hevaluated, -⟩
  · exact h
  · rw [hlanding] at hevaluated
    cases hevaluated

theorem performAction_landing_elsewhere (h : a = .rotatePage ∨ ∃ r, s.player = .reg r) :
    (performAction a s).2 = .elsewhere := by
  rcases h with rfl | ⟨r, hplayer⟩
  · rfl
  · cases a with
    | rotatePage => rfl
    | move d => rw [performAction_move_of_reg d hplayer]

theorem beforeCpuStep_of_elsewhere (h : a = .rotatePage ∨ ∃ r, s.player = .reg r) :
    beforeCpuStep a s = (performAction a s).1 := by
  apply beforeCpuStep_of_not_evaluated
  rw [performAction_landing_elsewhere h]
  rfl

/-- A Move of a player in the grid is blocked and changes nothing, or relocates the player on the same page. -/
theorem performAction_landing_cases {d : Dir} {x y : Byte} (hplayer : s.player = .pos x y) :
    (performAction (.move d) s = (s, .blocked)) ∨
    ((performAction (.move d) s).2 = .relocated ∧ (performAction (.move d) s).1.player ≠ s.player ∧
      (performAction (.move d) s).1.activePage = s.activePage) := by
  rw [performAction_move_of_pos d hplayer]
  rcases gridMove_landing_cases d x y s with h | ⟨cx, cy, hne, h⟩ <;> rw [h]
  · exact Or.inl rfl
  · refine Or.inr ⟨rfl, fun hsame => hne ?_, rfl⟩
    obtain ⟨hx, hy⟩ := Player.pos.inj (hsame.trans hplayer)
    rw [hx, hy]

/-- Without the setting, no trigger is evaluated when the player stays (decision D19). -/
theorem beforeCpuStep_of_stayed (hsetting : s.cfg.triggerOnBlockedMove = false)
    (hstayed : (performAction a s).1.player = s.player) : beforeCpuStep a s = (performAction a s).1 := by
  cases a with
  | rotatePage => exact beforeCpuStep_of_elsewhere (Or.inl rfl)
  | move d =>
    cases hplayer : s.player with
    | reg r => exact beforeCpuStep_of_elsewhere (Or.inr ⟨r, hplayer⟩)
    | pos x y =>
      rcases performAction_landing_cases (d := d) hplayer with hblocked | ⟨-, hmoved, -⟩
      · exact beforeCpuStep_of_not_evaluated (by rw [hblocked]; exact hsetting)
      · exact absurd hstayed hmoved

end

end Sys2Proof.Machine

namespace Sys2Proof.Proofs

open Machine

/-- Settles O50: firing is the effect on the marked state, and a marked one-time trigger is inactive. -/
theorem oneTimeTriggerFiresOnce : Obligations.OneTimeTriggerFiresOnce := by
  intro s pg a trigger hfind hactive
  refine ⟨findTrigger_fireAt hfind hactive, ⟨s.markTriggered pg a, fireAt_of_active hfind hactive, rfl,
    memRead_markTriggered s pg a, fireAt_memory hfind hactive, markTriggered_ids s.memory pg a,
    fun pg' hother => page?_markTriggered_other s.memory a hother, ?_, fun k other hk hother => ?_⟩,
    fireAt_fireAt_of_oneTime hfind hactive, fireAt_fireAt_of_repeatable hfind hactive⟩
  · rw [triggerTable_marked, List.length_map]
  · rw [triggerTable_marked, List.getElem?_map, hk, Option.map_some, Trigger.markAt_of_other hother]

/-- Settles O51: a Move of a player in the grid is blocked or relocates it, and the setting decides about the first. -/
theorem triggersNeedALanding : Obligations.TriggersNeedALanding := by
  intro a s
  refine ⟨fun hsetting => ⟨?relocated, ?quiet⟩, fun hsetting => ⟨?anyMove, beforeCpuStep_of_elsewhere⟩⟩
  case relocated =>
    rintro x y d cx cy rfl hplayer hlanded hne
    rcases performAction_landing_cases (d := d) hplayer with hblocked | ⟨hlanding, -, hpage⟩
    · rw [hblocked, hplayer] at hlanded
      obtain ⟨rfl, rfl⟩ := Player.pos.inj hlanded
      exact absurd rfl hne
    · rw [beforeCpuStep_of_evaluated (by rw [hlanding]; rfl) hlanded, hpage]
  case quiet =>
    rintro (hstayed | helsewhere)
    · exact beforeCpuStep_of_stayed hsetting hstayed
    · exact beforeCpuStep_of_elsewhere helsewhere
  case anyMove =>
    rintro x y d cx cy rfl hplayer hlanded
    rcases performAction_landing_cases (d := d) hplayer with hblocked | ⟨hlanding, -, hpage⟩
    · rw [beforeCpuStep_of_evaluated (by rw [hblocked]; exact hsetting) hlanded, hblocked]
    · rw [beforeCpuStep_of_evaluated (by rw [hlanding]; rfl) hlanded, hpage]

/-- Settles O49: one equation per effect; a SetProgramCounter writes registers and `pc` alone. -/
theorem triggerEffects : Obligations.TriggerEffects := by
  refine ⟨fun s target hresets => ⟨_, rfl, redirect_pc target s, ?_, ?_, redirect_reg_page target s,
    untouched_redirect target s⟩, fun s target hkeeps => ?_, fun _ => rfl, applyEffect_message_win,
    fun s text hne => applyEffect_message_of_ne hne s⟩
  · rw [applyEffect, redirect_eq_of_resets hresets]
    rfl
  · rw [applyEffect, redirect_eq_of_resets hresets]
    rfl
  · exact redirect_eq_of_keeps (by simp [hkeeps]) target

end Sys2Proof.Proofs
end

section
/-! The query `instruction_range`, 55_host_interface.md R222: how far the two searches go. -/

namespace Sys2Proof.Machine

theorem extendUp_le (p : Nat → Bool) (y : Nat) : extendUp p y ≤ y := by
  induction y with
  | zero => exact Nat.le_refl 0
  | succ y ih =>
    rw [extendUp]
    split
    · exact Nat.le_succ_of_le ih
    · exact Nat.le_refl _

theorem of_extendUp_le {p : Nat → Bool} {y r : Nat} (hlo : extendUp p y ≤ r) (hr : r < y) : p r = true := by
  induction y with
  | zero => exact absurd hr (Nat.not_lt_zero r)
  | succ y ih =>
    rw [extendUp] at hlo
    split at hlo
    next hy =>
      rcases Nat.lt_succ_iff_lt_or_eq.1 hr with hr | rfl
      · exact ih hlo hr
      · exact hy
    next => omega

theorem extendUp_maximal (p : Nat → Bool) (y : Nat) : extendUp p y = 0 ∨ ¬p (extendUp p y - 1) = true := by
  induction y with
  | zero => exact Or.inl rfl
  | succ y ih =>
    rw [extendUp]
    split
    next => exact ih
    next hy => exact Or.inr hy

theorem le_extendDown (p : Nat → Bool) (n y : Nat) : y ≤ extendDown p n y := by
  induction n generalizing y with
  | zero => exact Nat.le_refl y
  | succ n ih =>
    rw [extendDown]
    split
    · exact (Nat.le_succ y).trans (ih (y + 1))
    · exact Nat.le_refl y

theorem extendDown_le (p : Nat → Bool) (n y : Nat) : extendDown p n y ≤ y + n := by
  induction n generalizing y with
  | zero => exact Nat.le_refl y
  | succ n ih =>
    rw [extendDown]
    split
    · exact (ih (y + 1)).trans (by omega)
    · exact Nat.le_add_right y _

theorem of_le_extendDown {p : Nat → Bool} {n y r : Nat} (hr : y < r) (hhi : r ≤ extendDown p n y) : p r = true := by
  induction n generalizing y with
  | zero => exact absurd hhi (Nat.not_le.2 hr)
  | succ n ih =>
    rw [extendDown] at hhi
    split at hhi
    next hy =>
      rcases Nat.eq_or_lt_of_le (Nat.succ_le_of_lt hr) with rfl | hr
      · exact hy
      · exact ih hr hhi
    next => omega

theorem extendDown_maximal (p : Nat → Bool) (n y : Nat) :
    extendDown p n y = y + n ∨ ¬p (extendDown p n y + 1) = true := by
  induction n generalizing y with
  | zero => exact Or.inl rfl
  | succ n ih =>
    rw [extendDown]
    split
    next => exact (ih (y + 1)).imp_left fun h => h.trans (by omega)
    next hy => exact Or.inr hy

theorem rowHasInstr_iff (s : State) (x : Byte) (r : Nat) :
    rowHasInstr s x r = true ↔ isNone (readInstruction s s.activePage (pack x (BitVec.ofNat 8 r))) = false := by
  rw [rowHasInstr, Bool.not_eq_true']

/-- The row of `pc` holds the instruction at `pc`. -/
theorem rowHasInstr_self_iff (s : State) (pc : Addr) :
    rowHasInstr s (xof pc) (yof pc).toNat = true ↔ isNone (readInstruction s s.activePage pc) = false := by
  rw [rowHasInstr_iff, BitVec.ofNat_toNat, BitVec.setWidth_eq, pack_xof_yof]

end Sys2Proof.Machine

namespace Sys2Proof.Proofs

open Machine

/-- Settles O53: the search upwards and the search downwards each stop at the first row without an instruction. -/
theorem instructionRangeIsMaximal : Obligations.InstructionRangeIsMaximal := by
  intro s pc has
  refine ⟨fun hnone => if_neg ?_, fun hsome => ?_⟩
  · rw [rowHasInstr_self_iff, hnone]
    exact Bool.true_eq_false.mp
  · have hself := (rowHasInstr_self_iff s pc).2 hsome
    have hrow : (yof pc).toNat < 256 := (yof pc).isLt
    have hhas (r : Nat) : rowHasInstr s (xof pc) r = true ↔ has r := rowHasInstr_iff s (xof pc) r
    have hup := extendUp_le (rowHasInstr s (xof pc)) (yof pc).toNat
    have hdown := le_extendDown (rowHasInstr s (xof pc)) (255 - (yof pc).toNat) (yof pc).toNat
    have hbound := extendDown_le (rowHasInstr s (xof pc)) (255 - (yof pc).toNat) (yof pc).toNat
    refine ⟨_, _, if_pos hself, hup, hdown, by omega, fun r hlo hhi => (hhas r).1 ?_, ?_, ?_⟩
    · rcases Nat.lt_trichotomy r (yof pc).toNat with hr | rfl | hr
      · exact of_extendUp_le hlo hr
      · exact hself
      · exact of_le_extendDown hr hhi
    · exact (extendUp_maximal _ _).imp_right (mt (hhas _).2)
    · exact (extendDown_maximal _ _ _).imp (fun h => h.trans (by omega)) (mt (hhas _).2)

end Sys2Proof.Proofs
end
